-- ==== Sys2Proof/Word.lean ====
section
/-! DEFINITION. The value types of the machine: words, register indices, text, and the two readings of a word. -/

namespace Sys2Proof

/-- A register value, ALU operand, immediate or data-memory word (00_scope.md R6, R9). -/
abbrev Word := BitVec 32

/-- A register index; "register indices are always in [0,31]" (10_state.md R25, 30_encoding.md R92). -/
abbrev Reg := Fin 32

/-- Source text: a sequence of characters (40_assembler.md R121; PRESUMED, log 12). -/
abbrev Text := List Char

/-- The signed, two's complement reading of a word (00_scope.md R9). -/
abbrev s32 (v : Word) : Int := v.toInt

/-- The unsigned reading of a word (00_scope.md R9). -/
abbrev u32 (v : Word) : Nat := v.toNat

end Sys2Proof
end

