-- ==== Sys2Proof/Config.lean ====
section
/-! DEFINITION. What an implementation fixes: the OPEN data-memory size N, and the spec's bound on a program. -/

namespace Sys2Proof

/-- N/4 - 1, for the open parameter N (00_scope.md R7, D1): every value of this constant gives an N that R7 allows, and
every N that R7 allows is given by one value. Nothing can evaluate it. DESIGN CHOICE, log 1. -/
opaque Config.extraWords : Fin 536870912

/-- The data-memory size N in bytes of the machine `State.reset` describes: N mod 4 = 0 and 0 < N <= 2^31, otherwise
free (00_scope.md R7). -/
def Config.dataBytes : Nat := 4 * (Config.extraWords.val + 1)

/-- The largest instructionCount, 2^29 (00_scope.md R8; the spec's decision D2, log 22). -/
def Config.maxInstructions : Nat := 536870912

end Sys2Proof
end

