-- ==== Sys2Proof/Syntax.lean ====
section
/-! DEFINITION. The instructions: record types, op names, and one constructor of `Instr` per row of the opcode table. -/

namespace Sys2Proof

/-- The type tag of an Instruction record (30_encoding.md R80). -/
inductive RecordType where
  | r | i | s | b
  deriving DecidableEq, Repr

/-- The op of an Instruction record, after normalisation: 27 names (30_encoding.md R89, R94). -/
inductive Op where
  | add | sub | and | or | xor | sll | srl | sra | slt | sltu
  | addi | andi | ori | xori | slti | sltiu | slli | srli | srai
  | lw | sw
  | beq | bne | blt | bge | bltu | bgeu
  deriving DecidableEq, Repr

/-- The instructions a programmer can write, operands resolved: the 34 mnemonics of 30_encoding.md R88. An immediate is
the full 32-bit value (R91). Twenty-seven of them are record forms (R95). The seven aliases lb, lh, lbu, lhu, li
(of lw) and sb, sh (of sw) become records of lw and sw (R89): see `Instr.recordForm`. -/
inductive Instr where
  /-- `add rd, rs1, rs2` (R183). -/
  | add (rd rs1 rs2 : Reg)
  /-- `sub rd, rs1, rs2` (R184). -/
  | sub (rd rs1 rs2 : Reg)
  /-- `and rd, rs1, rs2` (R185). -/
  | and (rd rs1 rs2 : Reg)
  /-- `or rd, rs1, rs2` (R186). -/
  | or (rd rs1 rs2 : Reg)
  /-- `xor rd, rs1, rs2` (R187). -/
  | xor (rd rs1 rs2 : Reg)
  /-- `sll rd, rs1, rs2` (R188). -/
  | sll (rd rs1 rs2 : Reg)
  /-- `srl rd, rs1, rs2` (R189). -/
  | srl (rd rs1 rs2 : Reg)
  /-- `sra rd, rs1, rs2` (R190). -/
  | sra (rd rs1 rs2 : Reg)
  /-- `slt rd, rs1, rs2` (R191). -/
  | slt (rd rs1 rs2 : Reg)
  /-- `sltu rd, rs1, rs2` (R192). -/
  | sltu (rd rs1 rs2 : Reg)
  /-- `addi rd, rs1, imm` (R201). -/
  | addi (rd rs1 : Reg) (imm : Word)
  /-- `andi rd, rs1, imm` (R202). -/
  | andi (rd rs1 : Reg) (imm : Word)
  /-- `ori rd, rs1, imm` (R203). -/
  | ori (rd rs1 : Reg) (imm : Word)
  /-- `xori rd, rs1, imm` (R204). -/
  | xori (rd rs1 : Reg) (imm : Word)
  /-- `slti rd, rs1, imm` (R205). -/
  | slti (rd rs1 : Reg) (imm : Word)
  /-- `sltiu rd, rs1, imm` (R206). -/
  | sltiu (rd rs1 : Reg) (imm : Word)
  /-- `slli rd, rs1, imm` (R207). -/
  | slli (rd rs1 : Reg) (imm : Word)
  /-- `srli rd, rs1, imm` (R208). -/
  | srli (rd rs1 : Reg) (imm : Word)
  /-- `srai rd, rs1, imm` (R209). -/
  | srai (rd rs1 : Reg) (imm : Word)
  /-- `lw rd, imm(rs1)` (R222). -/
  | lw (rd rs1 : Reg) (imm : Word)
  /-- `lb rd, imm(rs1)` (R229). -/
  | lb (rd rs1 : Reg) (imm : Word)
  /-- `lh rd, imm(rs1)` (R230). -/
  | lh (rd rs1 : Reg) (imm : Word)
  /-- `lbu rd, imm(rs1)` (R231). -/
  | lbu (rd rs1 : Reg) (imm : Word)
  /-- `lhu rd, imm(rs1)` (R232). -/
  | lhu (rd rs1 : Reg) (imm : Word)
  /-- `li rd, imm(rs1)` (R233). -/
  | li (rd rs1 : Reg) (imm : Word)
  /-- `sw rs2, imm(rs1)`: base rs1, value source rs2 (R225). -/
  | sw (rs1 rs2 : Reg) (imm : Word)
  /-- `sb rs2, imm(rs1)`: base rs1, value source rs2 (R234). -/
  | sb (rs1 rs2 : Reg) (imm : Word)
  /-- `sh rs2, imm(rs1)`: base rs1, value source rs2 (R235). -/
  | sh (rs1 rs2 : Reg) (imm : Word)
  /-- `beq rs1, rs2, imm`: imm is relative to the branch's own address (R248, R87). -/
  | beq (rs1 rs2 : Reg) (imm : Word)
  /-- `bne rs1, rs2, imm`: imm is relative to the branch's own address (R249, R87). -/
  | bne (rs1 rs2 : Reg) (imm : Word)
  /-- `blt rs1, rs2, imm`: imm is relative to the branch's own address (R250, R87). -/
  | blt (rs1 rs2 : Reg) (imm : Word)
  /-- `bge rs1, rs2, imm`: imm is relative to the branch's own address (R251, R87). -/
  | bge (rs1 rs2 : Reg) (imm : Word)
  /-- `bltu rs1, rs2, imm`: imm is relative to the branch's own address (R252, R87). -/
  | bltu (rs1 rs2 : Reg) (imm : Word)
  /-- `bgeu rs1, rs2, imm`: imm is relative to the branch's own address (R253, R87). -/
  | bgeu (rs1 rs2 : Reg) (imm : Word)
  deriving DecidableEq, Repr

/-- Normalisation (30_encoding.md R89): a Load-class mnemonic gives the record of lw, a Store-class one that of sw. -/
def Instr.recordForm : Instr → Instr
  | .lb rd rs1 imm | .lh rd rs1 imm | .lbu rd rs1 imm | .lhu rd rs1 imm | .li rd rs1 imm => .lw rd rs1 imm
  | .sb rs1 rs2 imm | .sh rs1 rs2 imm => .sw rs1 rs2 imm
  | .add rd rs1 rs2 => .add rd rs1 rs2
  | .sub rd rs1 rs2 => .sub rd rs1 rs2
  | .and rd rs1 rs2 => .and rd rs1 rs2
  | .or rd rs1 rs2 => .or rd rs1 rs2
  | .xor rd rs1 rs2 => .xor rd rs1 rs2
  | .sll rd rs1 rs2 => .sll rd rs1 rs2
  | .srl rd rs1 rs2 => .srl rd rs1 rs2
  | .sra rd rs1 rs2 => .sra rd rs1 rs2
  | .slt rd rs1 rs2 => .slt rd rs1 rs2
  | .sltu rd rs1 rs2 => .sltu rd rs1 rs2
  | .addi rd rs1 imm => .addi rd rs1 imm
  | .andi rd rs1 imm => .andi rd rs1 imm
  | .ori rd rs1 imm => .ori rd rs1 imm
  | .xori rd rs1 imm => .xori rd rs1 imm
  | .slti rd rs1 imm => .slti rd rs1 imm
  | .sltiu rd rs1 imm => .sltiu rd rs1 imm
  | .slli rd rs1 imm => .slli rd rs1 imm
  | .srli rd rs1 imm => .srli rd rs1 imm
  | .srai rd rs1 imm => .srai rd rs1 imm
  | .lw rd rs1 imm => .lw rd rs1 imm
  | .sw rs1 rs2 imm => .sw rs1 rs2 imm
  | .beq rs1 rs2 imm => .beq rs1 rs2 imm
  | .bne rs1 rs2 imm => .bne rs1 rs2 imm
  | .blt rs1 rs2 imm => .blt rs1 rs2 imm
  | .bge rs1 rs2 imm => .bge rs1 rs2 imm
  | .bltu rs1 rs2 imm => .bltu rs1 rs2 imm
  | .bgeu rs1 rs2 imm => .bgeu rs1 rs2 imm

/-- The op of the record an instruction becomes (30_encoding.md R89, R95). -/
def Instr.op : Instr → Op
  | .add _ _ _ => .add
  | .sub _ _ _ => .sub
  | .and _ _ _ => .and
  | .or _ _ _ => .or
  | .xor _ _ _ => .xor
  | .sll _ _ _ => .sll
  | .srl _ _ _ => .srl
  | .sra _ _ _ => .sra
  | .slt _ _ _ => .slt
  | .sltu _ _ _ => .sltu
  | .addi _ _ _ => .addi
  | .andi _ _ _ => .andi
  | .ori _ _ _ => .ori
  | .xori _ _ _ => .xori
  | .slti _ _ _ => .slti
  | .sltiu _ _ _ => .sltiu
  | .slli _ _ _ => .slli
  | .srli _ _ _ => .srli
  | .srai _ _ _ => .srai
  | .lw _ _ _ | .lb _ _ _ | .lh _ _ _ | .lbu _ _ _ | .lhu _ _ _ | .li _ _ _ => .lw
  | .sw _ _ _ | .sb _ _ _ | .sh _ _ _ => .sw
  | .beq _ _ _ => .beq
  | .bne _ _ _ => .bne
  | .blt _ _ _ => .blt
  | .bge _ _ _ => .bge
  | .bltu _ _ _ => .bltu
  | .bgeu _ _ _ => .bgeu

/-- The one record type each op belongs to (30_encoding.md R95). -/
def Op.recordType : Op → RecordType
  | .add | .sub | .and | .or | .xor | .sll | .srl | .sra | .slt | .sltu => .r
  | .addi | .andi | .ori | .xori | .slti | .sltiu | .slli | .srli | .srai
  | .lw => .i
  | .sw => .s
  | .beq | .bne | .blt | .bge | .bltu | .bgeu => .b

end Sys2Proof
end

