-- ==== Sys2Proof/WellFormed.lean ====
section
/-! DEFINITION. Well-formed instructions: those an Instruction record can hold. Register indices and immediates are in
range by their types (30_encoding.md R92, U1), so what is left to check is that the instruction is one of the 27
record forms and no alias. -/

namespace Sys2Proof

/-- A Load-class alias: it "produces a record with `type = I` and `op = lw`" and is no record form (30_encoding.md R89). -/
def Instr.isLoadAlias : Instr → Bool
  | .add _ _ _ => false
  | .sub _ _ _ => false
  | .and _ _ _ => false
  | .or _ _ _ => false
  | .xor _ _ _ => false
  | .sll _ _ _ => false
  | .srl _ _ _ => false
  | .sra _ _ _ => false
  | .slt _ _ _ => false
  | .sltu _ _ _ => false
  | .addi _ _ _ => false
  | .andi _ _ _ => false
  | .ori _ _ _ => false
  | .xori _ _ _ => false
  | .slti _ _ _ => false
  | .sltiu _ _ _ => false
  | .slli _ _ _ => false
  | .srli _ _ _ => false
  | .srai _ _ _ => false
  | .lw _ _ _ => false
  | .lb _ _ _ => true
  | .lh _ _ _ => true
  | .lbu _ _ _ => true
  | .lhu _ _ _ => true
  | .li _ _ _ => true
  | .sw _ _ _ => false
  | .sb _ _ _ => false
  | .sh _ _ _ => false
  | .beq _ _ _ => false
  | .bne _ _ _ => false
  | .blt _ _ _ => false
  | .bge _ _ _ => false
  | .bltu _ _ _ => false
  | .bgeu _ _ _ => false

/-- A Store-class alias: it "produces a record with `type = S` and `op = sw`" and is no record form (R89). -/
def Instr.isStoreAlias : Instr → Bool
  | .add _ _ _ => false
  | .sub _ _ _ => false
  | .and _ _ _ => false
  | .or _ _ _ => false
  | .xor _ _ _ => false
  | .sll _ _ _ => false
  | .srl _ _ _ => false
  | .sra _ _ _ => false
  | .slt _ _ _ => false
  | .sltu _ _ _ => false
  | .addi _ _ _ => false
  | .andi _ _ _ => false
  | .ori _ _ _ => false
  | .xori _ _ _ => false
  | .slti _ _ _ => false
  | .sltiu _ _ _ => false
  | .slli _ _ _ => false
  | .srli _ _ _ => false
  | .srai _ _ _ => false
  | .lw _ _ _ => false
  | .lb _ _ _ => false
  | .lh _ _ _ => false
  | .lbu _ _ _ => false
  | .lhu _ _ _ => false
  | .li _ _ _ => false
  | .sw _ _ _ => false
  | .sb _ _ _ => true
  | .sh _ _ _ => true
  | .beq _ _ _ => false
  | .bne _ _ _ => false
  | .blt _ _ _ => false
  | .bge _ _ _ => false
  | .bltu _ _ _ => false
  | .bgeu _ _ _ => false

/-- A record can hold the instruction: it is one of the 27 record forms of 30_encoding.md R95 (DEDUCED, log 4). -/
def Instr.wellFormed (i : Instr) : Bool := !i.isLoadAlias && !i.isStoreAlias

end Sys2Proof
end

