-- ==== Sys2Proof/Decode.lean ====
section
/-! DEFINITION. The packed record word of 30_encoding.md section 4: its decoder, total on all 64-bit words and rejecting by
name, and its encoder. -/

namespace Sys2Proof

/-- A packed record word; bit 0 is the least significant (30_encoding.md R93). -/
abbrev RecordWord := BitVec 64

/-- Bits 63:55, which must be 0 (R93). -/
def zeroField (w : RecordWord) : BitVec 9 := w.extractLsb' 55 9
/-- Bits 54:52, the type number (R93). -/
def typeField (w : RecordWord) : BitVec 3 := w.extractLsb' 52 3
/-- Bits 51:47, the op number (R93). -/
def opField (w : RecordWord) : BitVec 5 := w.extractLsb' 47 5
/-- Bits 46:42, register index rs2 (R93). -/
def rs2Field (w : RecordWord) : Reg := (w.extractLsb' 42 5).toFin
/-- Bits 41:37, register index rs1 (R93). -/
def rs1Field (w : RecordWord) : Reg := (w.extractLsb' 37 5).toFin
/-- Bits 36:32, register index rd (R93). -/
def rdField (w : RecordWord) : Reg := (w.extractLsb' 32 5).toFin
/-- Bits 31:0, the immediate (R93). -/
def immField (w : RecordWord) : Word := w.extractLsb' 0 32

/-- The seven fields of a packed word side by side, high bits first (R93). -/
def packFields (zero : BitVec 9) (ty : BitVec 3) (op : BitVec 5) (rs2 rs1 rd : Reg) (imm : Word) : RecordWord :=
  (zero ++ ty ++ op ++ BitVec.ofFin (w := 5) rs2 ++ BitVec.ofFin (w := 5) rs1 ++ BitVec.ofFin (w := 5) rd ++ imm).cast
    (by decide)

/-- Type numbers: R = 0, I = 1, S = 2, B = 3 (R93). -/
def RecordType.number : RecordType → BitVec 3
  | .r => 0 | .i => 1 | .s => 2 | .b => 3

/-- The type with a number; "4 to 7 are not a type" (R93). -/
def RecordType.ofNumber? (n : BitVec 3) : Option RecordType := [RecordType.r, .i, .s, .b][n.toNat]?

/-- The ops in the order of their numbers 0 to 26 (R94). -/
def Op.inOrder : List Op :=
  [Op.add, .sub, .and, .or, .xor, .sll, .srl, .sra, .slt, .sltu] ++
  [Op.addi, .andi, .ori, .xori, .slti, .sltiu, .slli, .srli, .srai] ++
  [Op.lw, .sw, .beq, .bne, .blt, .bge, .bltu, .bgeu]

/-- The op number of the packed word (R94). -/
def Op.number : Op → BitVec 5
  | .add => 0
  | .sub => 1
  | .and => 2
  | .or => 3
  | .xor => 4
  | .sll => 5
  | .srl => 6
  | .sra => 7
  | .slt => 8
  | .sltu => 9
  | .addi => 10
  | .andi => 11
  | .ori => 12
  | .xori => 13
  | .slti => 14
  | .sltiu => 15
  | .slli => 16
  | .srli => 17
  | .srai => 18
  | .lw => 19
  | .sw => 20
  | .beq => 21
  | .bne => 22
  | .blt => 23
  | .bge => 24
  | .bltu => 25
  | .bgeu => 26

/-- The op with a number; "27 to 31: not an op" (R94). -/
def Op.ofNumber? (n : BitVec 5) : Option Op := Op.inOrder[n.toNat]?

/-- Why a packed word is not well formed (R94, U9). -/
inductive DecodeError where
  /-- Bits 63:55 are not 0. -/
  | zeroBitsSet
  /-- The type number is 4 to 7. -/
  | unknownType (n : BitVec 3)
  /-- The op number is 27 to 31. -/
  | unknownOp (n : BitVec 5)
  /-- The op does not belong to the type: the pair is none of the 27 of R95. -/
  | opNotOfType (ty : RecordType) (op : Op)
  deriving DecidableEq, Repr

/-- The instruction of an op with the register and immediate fields of a word; it reads only the fields the op's type
has: "A decoder ignores the fields the type does not have" (R94, R84 to R87). -/
def Op.withFields (op : Op) (w : RecordWord) : Instr :=
  match op with
  | .add => .add (rdField w) (rs1Field w) (rs2Field w)
  | .sub => .sub (rdField w) (rs1Field w) (rs2Field w)
  | .and => .and (rdField w) (rs1Field w) (rs2Field w)
  | .or => .or (rdField w) (rs1Field w) (rs2Field w)
  | .xor => .xor (rdField w) (rs1Field w) (rs2Field w)
  | .sll => .sll (rdField w) (rs1Field w) (rs2Field w)
  | .srl => .srl (rdField w) (rs1Field w) (rs2Field w)
  | .sra => .sra (rdField w) (rs1Field w) (rs2Field w)
  | .slt => .slt (rdField w) (rs1Field w) (rs2Field w)
  | .sltu => .sltu (rdField w) (rs1Field w) (rs2Field w)
  | .addi => .addi (rdField w) (rs1Field w) (immField w)
  | .andi => .andi (rdField w) (rs1Field w) (immField w)
  | .ori => .ori (rdField w) (rs1Field w) (immField w)
  | .xori => .xori (rdField w) (rs1Field w) (immField w)
  | .slti => .slti (rdField w) (rs1Field w) (immField w)
  | .sltiu => .sltiu (rdField w) (rs1Field w) (immField w)
  | .slli => .slli (rdField w) (rs1Field w) (immField w)
  | .srli => .srli (rdField w) (rs1Field w) (immField w)
  | .srai => .srai (rdField w) (rs1Field w) (immField w)
  | .lw => .lw (rdField w) (rs1Field w) (immField w)
  | .sw => .sw (rs1Field w) (rs2Field w) (immField w)
  | .beq => .beq (rs1Field w) (rs2Field w) (immField w)
  | .bne => .bne (rs1Field w) (rs2Field w) (immField w)
  | .blt => .blt (rs1Field w) (rs2Field w) (immField w)
  | .bge => .bge (rs1Field w) (rs2Field w) (immField w)
  | .bltu => .bltu (rs1Field w) (rs2Field w) (immField w)
  | .bgeu => .bgeu (rs1Field w) (rs2Field w) (immField w)

/-- Decode a packed word: "A packed word is well formed when bits 63:55 are 0 and the pair (type, op) is one of the 27
pairs of rule R95" (R94); any other word "decodes to no instruction". -/
def decode (w : RecordWord) : Except DecodeError Instr :=
  if zeroField w ≠ 0 then .error .zeroBitsSet
  else
    match RecordType.ofNumber? (typeField w) with
    | none => .error (.unknownType (typeField w))
    | some ty =>
      match Op.ofNumber? (opField w) with
      | none => .error (.unknownOp (opField w))
      | some op => if op.recordType = ty then .ok (op.withFields w) else .error (.opNotOfType ty op)

/-- The rd of an instruction's record, 0 where the type has none (R93). -/
def Instr.rdOrZero : Instr → Reg
  | .add rd _ _ => rd
  | .sub rd _ _ => rd
  | .and rd _ _ => rd
  | .or rd _ _ => rd
  | .xor rd _ _ => rd
  | .sll rd _ _ => rd
  | .srl rd _ _ => rd
  | .sra rd _ _ => rd
  | .slt rd _ _ => rd
  | .sltu rd _ _ => rd
  | .addi rd _ _ => rd
  | .andi rd _ _ => rd
  | .ori rd _ _ => rd
  | .xori rd _ _ => rd
  | .slti rd _ _ => rd
  | .sltiu rd _ _ => rd
  | .slli rd _ _ => rd
  | .srli rd _ _ => rd
  | .srai rd _ _ => rd
  | .lw rd _ _ => rd
  | .lb rd _ _ => rd
  | .lh rd _ _ => rd
  | .lbu rd _ _ => rd
  | .lhu rd _ _ => rd
  | .li rd _ _ => rd
  | .sw _ _ _ => 0
  | .sb _ _ _ => 0
  | .sh _ _ _ => 0
  | .beq _ _ _ => 0
  | .bne _ _ _ => 0
  | .blt _ _ _ => 0
  | .bge _ _ _ => 0
  | .bltu _ _ _ => 0
  | .bgeu _ _ _ => 0

/-- The rs1 of an instruction's record; every type has one (R84 to R87). -/
def Instr.rs1OrZero : Instr → Reg
  | .add _ rs1 _ => rs1
  | .sub _ rs1 _ => rs1
  | .and _ rs1 _ => rs1
  | .or _ rs1 _ => rs1
  | .xor _ rs1 _ => rs1
  | .sll _ rs1 _ => rs1
  | .srl _ rs1 _ => rs1
  | .sra _ rs1 _ => rs1
  | .slt _ rs1 _ => rs1
  | .sltu _ rs1 _ => rs1
  | .addi _ rs1 _ => rs1
  | .andi _ rs1 _ => rs1
  | .ori _ rs1 _ => rs1
  | .xori _ rs1 _ => rs1
  | .slti _ rs1 _ => rs1
  | .sltiu _ rs1 _ => rs1
  | .slli _ rs1 _ => rs1
  | .srli _ rs1 _ => rs1
  | .srai _ rs1 _ => rs1
  | .lw _ rs1 _ => rs1
  | .lb _ rs1 _ => rs1
  | .lh _ rs1 _ => rs1
  | .lbu _ rs1 _ => rs1
  | .lhu _ rs1 _ => rs1
  | .li _ rs1 _ => rs1
  | .sw rs1 _ _ => rs1
  | .sb rs1 _ _ => rs1
  | .sh rs1 _ _ => rs1
  | .beq rs1 _ _ => rs1
  | .bne rs1 _ _ => rs1
  | .blt rs1 _ _ => rs1
  | .bge rs1 _ _ => rs1
  | .bltu rs1 _ _ => rs1
  | .bgeu rs1 _ _ => rs1

/-- The rs2 of an instruction's record, 0 where the type has none (R93). -/
def Instr.rs2OrZero : Instr → Reg
  | .add _ _ rs2 => rs2
  | .sub _ _ rs2 => rs2
  | .and _ _ rs2 => rs2
  | .or _ _ rs2 => rs2
  | .xor _ _ rs2 => rs2
  | .sll _ _ rs2 => rs2
  | .srl _ _ rs2 => rs2
  | .sra _ _ rs2 => rs2
  | .slt _ _ rs2 => rs2
  | .sltu _ _ rs2 => rs2
  | .addi _ _ _ => 0
  | .andi _ _ _ => 0
  | .ori _ _ _ => 0
  | .xori _ _ _ => 0
  | .slti _ _ _ => 0
  | .sltiu _ _ _ => 0
  | .slli _ _ _ => 0
  | .srli _ _ _ => 0
  | .srai _ _ _ => 0
  | .lw _ _ _ => 0
  | .lb _ _ _ => 0
  | .lh _ _ _ => 0
  | .lbu _ _ _ => 0
  | .lhu _ _ _ => 0
  | .li _ _ _ => 0
  | .sw _ rs2 _ => rs2
  | .sb _ rs2 _ => rs2
  | .sh _ rs2 _ => rs2
  | .beq _ rs2 _ => rs2
  | .bne _ rs2 _ => rs2
  | .blt _ rs2 _ => rs2
  | .bge _ rs2 _ => rs2
  | .bltu _ rs2 _ => rs2
  | .bgeu _ rs2 _ => rs2

/-- The immediate of an instruction's record, 0 for type R (R93). -/
def Instr.immOrZero : Instr → Word
  | .add _ _ _ => 0
  | .sub _ _ _ => 0
  | .and _ _ _ => 0
  | .or _ _ _ => 0
  | .xor _ _ _ => 0
  | .sll _ _ _ => 0
  | .srl _ _ _ => 0
  | .sra _ _ _ => 0
  | .slt _ _ _ => 0
  | .sltu _ _ _ => 0
  | .addi _ _ imm => imm
  | .andi _ _ imm => imm
  | .ori _ _ imm => imm
  | .xori _ _ imm => imm
  | .slti _ _ imm => imm
  | .sltiu _ _ imm => imm
  | .slli _ _ imm => imm
  | .srli _ _ imm => imm
  | .srai _ _ imm => imm
  | .lw _ _ imm => imm
  | .lb _ _ imm => imm
  | .lh _ _ imm => imm
  | .lbu _ _ imm => imm
  | .lhu _ _ imm => imm
  | .li _ _ imm => imm
  | .sw _ _ imm => imm
  | .sb _ _ imm => imm
  | .sh _ _ imm => imm
  | .beq _ _ imm => imm
  | .bne _ _ imm => imm
  | .blt _ _ imm => imm
  | .bge _ _ imm => imm
  | .bltu _ _ imm => imm
  | .bgeu _ _ imm => imm

/-- The packed word of the record an instruction becomes (R93, R94): the fields its type does not have are 0, and an
alias gives the word of the record it is normalised to (R89). -/
def encode (i : Instr) : RecordWord :=
  packFields 0 i.op.recordType.number i.op.number i.rs2OrZero i.rs1OrZero i.rdOrZero i.immOrZero

/-- What the decoder reads from an instruction whose bits are `w`, numbered as spec/opcode_table.json numbers them; the
bits from `nbits` up are 0. A packed word has 64 bits (R93), so nothing wider is an instruction (log 19). -/
def decodeTableWord (nbits w : Nat) : Option Instr :=
  if nbits ≤ 64 then (decode (BitVec.ofNat 64 (w % 2 ^ nbits))).toOption else none

end Sys2Proof
end

