-- ==== Sys2Proof/Machine/State.lean ====
section
/-! DEFINITION. The state of one engine (10_state.md R20), its power-on value, and the reasons a step can stop. -/

namespace Sys2Proof.Machine

/-- The engine status, a stored value (10_state.md R30, D4; log 22). -/
inductive Status where
  /-- No program loaded. -/
  | idle
  /-- Program loaded, not executing. -/
  | ready
  /-- The run has ended. -/
  | halted
  deriving DecidableEq, Repr

/-- An Instruction record (30_encoding.md R81): its type, op and operand fields as the packed word of R93 (log 3), the
address where it resides (R82) and its source line (R83). -/
structure Record where
  word    : RecordWord
  address : Nat
  text    : Text
  deriving DecidableEq, Repr

/-- The Data Memory: the words that are not 0, each with its address, addresses strictly rising. A cell is one 32-bit
word (20_memory.md R50) and there is no byte view (R56; log 2). -/
abbrev Memory := List (Nat × Word)

/-- What an address the list does not hold reads as: the Data Memory is "initialized to 0" (10_state.md R36, R39; log 18). -/
def Memory.unlisted : Word := 0

/-- The complete state of one engine instance (10_state.md R20). -/
structure State where
  /-- The Register File, slots 0 to 31 (R21). -/
  regs      : Vector Word 32
  /-- The program counter, a byte address (R26, R27). -/
  pc        : Word
  /-- The engine status (R30). -/
  status    : Status
  /-- The instruction sequence; instructionCount is its length (R33). -/
  imem      : List Record
  /-- The Label Table, in the order the labels were registered (R35). -/
  labels    : List (Text × Nat)
  /-- The Data Memory (R36). -/
  mem       : Memory
  /-- The parameter N of this machine, the Data Memory's size in bytes (00_scope.md R7): fixed, no step and no host
  operation changes it. The model's own field (log 1). -/
  dataBytes : Nat
  deriving DecidableEq, Repr

/-- A freshly constructed engine with a Data Memory of `n` bytes (10_state.md R38, D23; log 8). -/
def State.powerOn (n : Nat) : State :=
  { regs := Vector.replicate 32 0, pc := 0, status := .idle, imem := [], labels := [], mem := [], dataBytes := n }

/-- The machine right after power-on, its N left open (log 1). -/
def State.reset : State := State.powerOn Config.dataBytes

/-- The causes of the spec's ExecutionError (60_exceptions.md R305). -/
inductive ExecutionError where
  /-- A fetch at a pc inside the valid range and not a multiple of 4 (45_engine.md R264, D7). Raised by `step`. Safe:
  the model stops where the source defines nothing. -/
  | misalignedFetch (pc : Word)
  /-- The fetched record's word is not well formed: its type is none of R, I, S, B, or its op does not belong to its
  type (45_engine.md R266, 30_encoding.md R94). It names the type number. Raised by `step`. Safe: no assembled
  program holds one. -/
  | unrecognisedRecord (ty : BitVec 3) (why : DecodeError)
  deriving DecidableEq, Repr

/-- Why a step stops with no state change (60_exceptions.md R300, R308). After each of these the engine of the spec is
still Ready with its state intact, and a further step repeats the same outcome (R314). -/
inductive Fault where
  /-- The outcome Error(ExecutionError). Raised by `step` before any instruction runs. Safe. -/
  | executionError (e : ExecutionError)
  /-- A Load or Store whose address is inside 0 .. N-1 and not a multiple of 4 (20_memory.md R59, D10). Raised by the
  loads and stores. Safe: the source gives no behaviour and the model claims none. -/
  | misalignedData (addr : Int)
  /-- A Store whose address is outside 0 .. N-1 (20_memory.md R53, D11). Raised by the stores. Safe, as above. -/
  | storeOutOfRange (addr : Int)
  deriving DecidableEq, Repr

/-- Why the model gives a step no meaning. -/
inductive Refusal where
  /-- An instruction with no meaning in the model yet. Raised by `exec`'s arms alone; no arm raises it now. Safe. -/
  | notModelled (mnemonic : String)
  deriving DecidableEq, Repr

end Sys2Proof.Machine
end

