-- ==== Sys2Proof/Machine/Flags.lean ====
section
/-! DEFINITION. Conditions. The hardware has no flags and no condition codes (10_state.md R32; log 21): no instruction computes one,
and a branch compares two words directly. What stands here is the Branch Evaluator (44_branch.md R240). -/

namespace Sys2Proof.Machine

/-- The Branch Evaluator, a pure function (44_branch.md R240); an op that is none of the six branches gives false
(R241). -/
def evaluate (op : Op) (a b : Word) : Bool :=
  match op with
  | .beq => a == b
  | .bne => a != b
  | .blt => a.slt b
  | .bge => !a.slt b
  | .bltu => a.ult b
  | .bgeu => !a.ult b
  | .add | .sub | .and | .or | .xor | .sll | .srl | .sra | .slt | .sltu => false
  | .addi | .andi | .ori | .xori | .slti | .sltiu | .slli | .srli | .srai => false
  | .lw | .sw => false

end Sys2Proof.Machine
end

