-- ==== Sys2Proof/Machine/Ops.lean ====
section
/-! DEFINITION. The named operations over memory, registers, the pc and the status, and the instruction fetch. This
hardware takes no exception: nothing is saved, there is no handler address and no return from one (60_exceptions.md R313,
R314; log 9); the only control event with an effect is the halt (`haltAtEnd`, `halt`). -/

namespace Sys2Proof.Machine

/-! ## The Data Memory's cells -/

/-- The canonical form: addresses strictly rising, no listed word equal to what an unlisted address reads as. -/
abbrev Memory.wf (m : Memory) : Prop := m.Pairwise (fun c d => c.1 < d.1) ∧ ∀ c ∈ m, c.2 ≠ Memory.unlisted

/-- The word of the cell at an address. -/
def Memory.read : Memory → Nat → Word
  | [], _ => Memory.unlisted
  | (b, w) :: m, a => if b = a then w else Memory.read m a

/-- A cell in front of a memory, left out if its word is what an unlisted address reads as. -/
def Memory.place (a : Nat) (v : Word) (m : Memory) : Memory := if v = Memory.unlisted then m else (a, v) :: m

/-- Replace the word of the cell at an address and keep the canonical form. -/
def Memory.write : Memory → Nat → Word → Memory
  | [], a, v => Memory.place a v []
  | (b, w) :: m, a, v =>
    if a < b then Memory.place a v ((b, w) :: m)
    else if a = b then Memory.place a v m
    else (b, w) :: Memory.write m a v

/-- The address lies in 0 .. N-1. -/
def inRange (addr : Int) (n : Nat) : Bool := decide (0 ≤ addr) && decide (addr.toNat < n)

/-- `MemRead(addr, 4)`: out of range reads 0, the range is tested first; in range and misaligned is a fault (20_memory.md
R52, D10; log 17). -/
def State.memRead (s : State) (addr : Int) : Except Fault Word :=
  if inRange addr s.dataBytes = false then .ok 0
  else if addr.toNat % 4 ≠ 0 then .error (.misalignedData addr)
  else .ok (s.mem.read addr.toNat)

/-- `MemWrite(addr, 4, v)`: out of range faults, then misaligned faults; otherwise the whole word is replaced
(20_memory.md R53, D10, D11). -/
def State.memWrite (s : State) (addr : Int) (v : Word) : Except Fault State :=
  if inRange addr s.dataBytes = false then .error (.storeOutOfRange addr)
  else if addr.toNat % 4 ≠ 0 then .error (.misalignedData addr)
  else .ok { s with mem := s.mem.write addr.toNat v }

/-! ## Registers -/

/-- `x[i]`: register 0 always reads as 0 (10_state.md R22). -/
def State.readReg (s : State) (r : Reg) : Word := if r = 0 then 0 else s.regs[r.val]

/-- `x[i] <- v`: a write to register 0 is discarded (10_state.md R23). -/
def State.writeReg (s : State) (r : Reg) (v : Word) : State :=
  if r = 0 then s else { s with regs := s.regs.set r.val v }

/-! ## Program counter and status -/

/-- instructionCount: the number of records (10_state.md R33). -/
def State.instructionCount (s : State) : Nat := s.imem.length

/-- `pc <- t`, which stores `t mod 2^32` (10_state.md R27, D3; log 22). -/
def State.setPc (s : State) (t : Int) : State := { s with pc := BitVec.ofInt 32 t }

/-- `pc <- pc + 4` (10_state.md R28). -/
def State.advancePc (s : State) : State := s.setPc (u32 s.pc + 4)

/-- The transition to Halted; no further state change (45_engine.md R262). -/
def State.halt (s : State) : State := { s with status := .halted }

/-- The self-loop halt: `pc <- 4 * instructionCount; status <- Halted` (44_branch.md R245, R246). -/
def State.haltAtEnd (s : State) : State := (s.setPc (4 * s.instructionCount)).halt

/-! ## Fetch -/

/-- What a fetch finds, in the order of 60_exceptions.md R310. -/
inductive Fetched where
  /-- The pc is outside [0, 4 * instructionCount) (45_engine.md R262). -/
  | outside
  /-- The pc is inside the range and not a multiple of 4 (R264). -/
  | misaligned
  /-- The record at index pc / 4 (R263). -/
  | record (r : Record)
  deriving DecidableEq, Repr

/-- The halt test, the alignment test and the fetch of `step()` (45_engine.md R261 to R264). It reads nothing but the pc
and the instruction sequence. -/
def State.fetch (s : State) : Fetched :=
  if h : 4 * s.imem.length ≤ u32 s.pc then .outside
  else if u32 s.pc % 4 ≠ 0 then .misaligned
  else .record (s.imem[u32 s.pc / 4]'(by omega))

end Sys2Proof.Machine
end

