-- ==== Sys2Proof/Machine/Operands.lean ====
section
/-! DEFINITION. The operand forms (register, immediate, memory operand, branch target), the ALU, and the one shared
execution per record type (41_alu_register.md R182, 42_alu_immediate.md R200, 43_load_store.md R222 and R225, 44_branch.md
R245). -/

namespace Sys2Proof.Machine

/-- The shift amount: `b & 0x1F`, the low five bits of the second operand (41_alu_register.md R180, 00_scope.md R11). -/
def shiftAmount (b : Word) : Nat := u32 b % 32

/-- A comparison's result: the word 1 or 0 (41_alu_register.md R181). -/
def boolWord (p : Bool) : Word := if p then 1 else 0

/-- The ALU, a pure function (41_alu_register.md R180). Any other op gives 0 (R193). -/
def alu (op : Op) (a b : Word) : Word :=
  match op with
  | .add | .addi => a + b
  | .sub => a - b
  | .and | .andi => a &&& b
  | .or | .ori => a ||| b
  | .xor | .xori => a ^^^ b
  | .sll | .slli => a <<< shiftAmount b
  | .srl | .srli => a >>> shiftAmount b
  | .sra | .srai => a.sshiftRight (shiftAmount b)
  | .slt | .slti => boolWord (a.slt b)
  | .sltu | .sltiu => boolWord (a.ult b)
  | .lw | .sw => 0
  | .beq | .bne | .blt | .bge | .bltu | .bgeu => 0

/-- The memory operand `imm(rs1)`: the exact integer sum of the two signed readings, no reduction (43_load_store.md R221,
D9; log 16). -/
def State.effectiveAddress (s : State) (rs1 : Reg) (imm : Word) : Int := s32 (s.readReg rs1) + s32 imm

/-- The outcome of a step. -/
abbrev StepResult := Host.Outcome State Fault Refusal

/-- A type R record: both sources are read before the destination is written (41_alu_register.md R182). -/
def execRType (op : Op) (rd rs1 rs2 : Reg) (s : State) : StepResult :=
  .next (s.writeReg rd (alu op (s.readReg rs1) (s.readReg rs2))).advancePc

/-- An I-arith record: the second operand is the full 32-bit immediate (42_alu_immediate.md R200). -/
def execIArith (op : Op) (rd rs1 : Reg) (imm : Word) (s : State) : StepResult :=
  .next (s.writeReg rd (alu op (s.readReg rs1) imm)).advancePc

/-- A Load record: a whole word (43_load_store.md R222). -/
def execLoad (rd rs1 : Reg) (imm : Word) (s : State) : StepResult :=
  match s.memRead (s.effectiveAddress rs1 imm) with
  | .ok v => .next (s.writeReg rd v).advancePc
  | .error f => .fault f

/-- A Store record: the whole word of rs2; no register changes (43_load_store.md R225). -/
def execStore (rs1 rs2 : Reg) (imm : Word) (s : State) : StepResult :=
  match s.memWrite (s.effectiveAddress rs1 imm) (s.readReg rs2) with
  | .ok t => .next t.advancePc
  | .error f => .fault f

/-- A type B record (44_branch.md R245): the target is relative to the branch's own address, and a taken branch with
immediate 0 is the self-loop halt (R246). -/
def execBranch (op : Op) (rs1 rs2 : Reg) (imm : Word) (s : State) : StepResult :=
  if evaluate op (s.readReg rs1) (s.readReg rs2) = false then .next s.advancePc
  else if imm = 0 then .next s.haltAtEnd
  else .next (s.setPc (u32 s.pc + s32 imm))

end Sys2Proof.Machine
end

