-- ==== Sys2Proof/Machine/Branch.lean ====
section
/-! DEFINITION. The six branch instructions (44_branch.md section 3). -/

namespace Sys2Proof.Machine

/-- `beq rs1, rs2, imm` (44_branch.md R248). -/
def execBeq (rs1 rs2 : Reg) (imm : Word) (s : State) : StepResult := execBranch .beq rs1 rs2 imm s

/-- `bne rs1, rs2, imm` (44_branch.md R249). -/
def execBne (rs1 rs2 : Reg) (imm : Word) (s : State) : StepResult := execBranch .bne rs1 rs2 imm s

/-- `blt rs1, rs2, imm` (44_branch.md R250). -/
def execBlt (rs1 rs2 : Reg) (imm : Word) (s : State) : StepResult := execBranch .blt rs1 rs2 imm s

/-- `bge rs1, rs2, imm` (44_branch.md R251). -/
def execBge (rs1 rs2 : Reg) (imm : Word) (s : State) : StepResult := execBranch .bge rs1 rs2 imm s

/-- `bltu rs1, rs2, imm` (44_branch.md R252). -/
def execBltu (rs1 rs2 : Reg) (imm : Word) (s : State) : StepResult := execBranch .bltu rs1 rs2 imm s

/-- `bgeu rs1, rs2, imm` (44_branch.md R253). -/
def execBgeu (rs1 rs2 : Reg) (imm : Word) (s : State) : StepResult := execBranch .bgeu rs1 rs2 imm s

end Sys2Proof.Machine
end

