-- ==== Sys2Proof/Machine/IArith.lean ====
section
/-! DEFINITION. The nine I-arith instructions (42_alu_immediate.md section 2). -/

namespace Sys2Proof.Machine

/-- `addi rd, rs1, imm` (42_alu_immediate.md R201). -/
def execAddi (rd rs1 : Reg) (imm : Word) (s : State) : StepResult := execIArith .addi rd rs1 imm s

/-- `andi rd, rs1, imm` (42_alu_immediate.md R202). -/
def execAndi (rd rs1 : Reg) (imm : Word) (s : State) : StepResult := execIArith .andi rd rs1 imm s

/-- `ori rd, rs1, imm` (42_alu_immediate.md R203). -/
def execOri (rd rs1 : Reg) (imm : Word) (s : State) : StepResult := execIArith .ori rd rs1 imm s

/-- `xori rd, rs1, imm` (42_alu_immediate.md R204). -/
def execXori (rd rs1 : Reg) (imm : Word) (s : State) : StepResult := execIArith .xori rd rs1 imm s

/-- `slti rd, rs1, imm` (42_alu_immediate.md R205). -/
def execSlti (rd rs1 : Reg) (imm : Word) (s : State) : StepResult := execIArith .slti rd rs1 imm s

/-- `sltiu rd, rs1, imm` (42_alu_immediate.md R206). -/
def execSltiu (rd rs1 : Reg) (imm : Word) (s : State) : StepResult := execIArith .sltiu rd rs1 imm s

/-- `slli rd, rs1, imm` (42_alu_immediate.md R207). -/
def execSlli (rd rs1 : Reg) (imm : Word) (s : State) : StepResult := execIArith .slli rd rs1 imm s

/-- `srli rd, rs1, imm` (42_alu_immediate.md R208). -/
def execSrli (rd rs1 : Reg) (imm : Word) (s : State) : StepResult := execIArith .srli rd rs1 imm s

/-- `srai rd, rs1, imm` (42_alu_immediate.md R209). -/
def execSrai (rd rs1 : Reg) (imm : Word) (s : State) : StepResult := execIArith .srai rd rs1 imm s

end Sys2Proof.Machine
end

