-- ==== Sys2Proof/Machine/LoadStore.lean ====
section
/-! DEFINITION. The load and store instructions (43_load_store.md): lw and sw, and the aliases, which act as they do (R224, R227). -/

namespace Sys2Proof.Machine

/-- `lw rd, imm(rs1)` (43_load_store.md R222). -/
def execLw (rd rs1 : Reg) (imm : Word) (s : State) : StepResult := execLoad rd rs1 imm s

/-- `lb rd, imm(rs1)` (43_load_store.md R229): `lw` unchanged. -/
def execLb (rd rs1 : Reg) (imm : Word) (s : State) : StepResult := execLoad rd rs1 imm s

/-- `lh rd, imm(rs1)` (43_load_store.md R230): `lw` unchanged. -/
def execLh (rd rs1 : Reg) (imm : Word) (s : State) : StepResult := execLoad rd rs1 imm s

/-- `lbu rd, imm(rs1)` (43_load_store.md R231): `lw` unchanged. -/
def execLbu (rd rs1 : Reg) (imm : Word) (s : State) : StepResult := execLoad rd rs1 imm s

/-- `lhu rd, imm(rs1)` (43_load_store.md R232): `lw` unchanged. -/
def execLhu (rd rs1 : Reg) (imm : Word) (s : State) : StepResult := execLoad rd rs1 imm s

/-- `li rd, imm(rs1)` (43_load_store.md R233): `lw` unchanged. -/
def execLi (rd rs1 : Reg) (imm : Word) (s : State) : StepResult := execLoad rd rs1 imm s

/-- `sw rs2, imm(rs1)` (43_load_store.md R225). -/
def execSw (rs1 rs2 : Reg) (imm : Word) (s : State) : StepResult := execStore rs1 rs2 imm s

/-- `sb rs2, imm(rs1)` (43_load_store.md R234): `sw` unchanged. -/
def execSb (rs1 rs2 : Reg) (imm : Word) (s : State) : StepResult := execStore rs1 rs2 imm s

/-- `sh rs2, imm(rs1)` (43_load_store.md R235): `sw` unchanged. -/
def execSh (rs1 rs2 : Reg) (imm : Word) (s : State) : StepResult := execStore rs1 rs2 imm s

end Sys2Proof.Machine
end

