-- ==== Sys2Proof/Machine/RType.lean ====
section
/-! DEFINITION. The ten type R instructions (41_alu_register.md section 3). -/

namespace Sys2Proof.Machine

/-- `add rd, rs1, rs2` (41_alu_register.md R183). -/
def execAdd (rd rs1 rs2 : Reg) (s : State) : StepResult := execRType .add rd rs1 rs2 s

/-- `sub rd, rs1, rs2` (41_alu_register.md R184). -/
def execSub (rd rs1 rs2 : Reg) (s : State) : StepResult := execRType .sub rd rs1 rs2 s

/-- `and rd, rs1, rs2` (41_alu_register.md R185). -/
def execAnd (rd rs1 rs2 : Reg) (s : State) : StepResult := execRType .and rd rs1 rs2 s

/-- `or rd, rs1, rs2` (41_alu_register.md R186). -/
def execOr (rd rs1 rs2 : Reg) (s : State) : StepResult := execRType .or rd rs1 rs2 s

/-- `xor rd, rs1, rs2` (41_alu_register.md R187). -/
def execXor (rd rs1 rs2 : Reg) (s : State) : StepResult := execRType .xor rd rs1 rs2 s

/-- `sll rd, rs1, rs2` (41_alu_register.md R188). -/
def execSll (rd rs1 rs2 : Reg) (s : State) : StepResult := execRType .sll rd rs1 rs2 s

/-- `srl rd, rs1, rs2` (41_alu_register.md R189). -/
def execSrl (rd rs1 rs2 : Reg) (s : State) : StepResult := execRType .srl rd rs1 rs2 s

/-- `sra rd, rs1, rs2` (41_alu_register.md R190). -/
def execSra (rd rs1 rs2 : Reg) (s : State) : StepResult := execRType .sra rd rs1 rs2 s

/-- `slt rd, rs1, rs2` (41_alu_register.md R191). -/
def execSlt (rd rs1 rs2 : Reg) (s : State) : StepResult := execRType .slt rd rs1 rs2 s

/-- `sltu rd, rs1, rs2` (41_alu_register.md R192). -/
def execSltu (rd rs1 rs2 : Reg) (s : State) : StepResult := execRType .sltu rd rs1 rs2 s

end Sys2Proof.Machine
end

