-- ==== Sys2Proof/Machine/Step.lean ====
section
/-! DEFINITION. One `step()` of the engine, and how an instruction is put where it fetches next. -/

namespace Sys2Proof.Machine

/-- `step()` (45_engine.md R261). The outcomes Executed and Halted are next states; Error(ExecutionError) and the spec's
faults stop the machine and change nothing (R266, R269; log 5 and log 6). -/
def step (s : State) : Host.Outcome State Fault Refusal :=
  match s.fetch with
  | .outside => .next s.halt
  | .misaligned => .fault (.executionError (.misalignedFetch s.pc))
  | .record r =>
    match decode r.word with
    | .error e => .fault (.executionError (.unrecognisedRecord (typeField r.word) e))
    | .ok i => exec i s

/-- Put one instruction word where `step` fetches next (log 7). The engine runs only what `load()` installed
(45_engine.md R281), so this stands for that load: where the pc names a record, that record is replaced; where it names
none, the program's first record is, and the pc is 0, as after a load. -/
def State.withFetchWord (s : State) (nbits w : Nat) : State :=
  let k := match s.fetch with
    | .record _ => u32 s.pc / 4
    | .outside | .misaligned => 0
  let r : Record := { word := BitVec.ofNat 64 (w % 2 ^ nbits), address := 4 * k, text := [] }
  { s with
    pc := BitVec.ofNat 32 (4 * k)
    status := .ready
    imem := if s.imem = [] then [r] else s.imem.set k r }

end Sys2Proof.Machine
end

