-- ==== Sys2Proof/Machine/Lexer.lean ====
section
/-! DEFINITION. The lexical level of the assembler (40_assembler.md sections 1, 3, 4, 5): lines, cleaning, tokens, numeric
literals, register names, the shape of a memory operand. -/

namespace Sys2Proof.Machine

/-- Lines end at the line feed; a carriage return stays and is trimmed later (40_assembler.md R121). -/
def splitLines : Text → List Text
  | [] => [[]]
  | c :: cs =>
    if c = '\n' then [] :: splitLines cs
    else match splitLines cs with
      | [] => [[c]]
      | l :: ls => (c :: l) :: ls

/-- Whitespace: space, tab, carriage return, form feed, vertical tab (R122). -/
def isSpace (c : Char) : Bool := c = ' ' || c = '\t' || c = '\r' || c = '\x0c' || c = '\x0b'

/-- Remove leading and trailing whitespace (R122). -/
def trim (t : Text) : Text := ((t.dropWhile isSpace).reverse.dropWhile isSpace).reverse

/-- `clean(L)`: drop the first `#` and all after it, then trim (R122). -/
def clean (line : Text) : Text := trim (line.takeWhile (· ≠ '#'))

/-- The kinds of line (R123). -/
inductive LineKind where
  | blank
  /-- A label line, with the label's name (R125). -/
  | label (name : Text)
  /-- An instruction line, with its cleaned text. -/
  | instruction (cleaned : Text)
  deriving DecidableEq, Repr

/-- Classify a cleaned line: empty, last character `:`, or anything else (R123). The name of a label is what stands before
its last colon, trimmed once more (R125). -/
def classifyCleaned (c : Text) : LineKind :=
  match c.getLast? with
  | none => .blank
  | some ':' => .label (trim c.dropLast)
  | some _ => .instruction c

/-- Clean and classify a source line; both passes use it (R123, R128). -/
def classifyLine (line : Text) : LineKind := classifyCleaned (clean line)

/-- Token separators: whitespace and commas (R129). -/
def isSeparator (c : Char) : Bool := isSpace c || c = ','

/-- The tokens of a text, `cur` being the characters of the token under way, last first. -/
def tokensFrom : Text → Text → List Text
  | [], cur => if cur = [] then [] else [cur.reverse]
  | c :: cs, cur =>
    if isSeparator c then (if cur = [] then tokensFrom cs [] else cur.reverse :: tokensFrom cs [])
    else tokensFrom cs (c :: cur)

/-- Cut at every maximal run of separators; empty tokens are dropped (R129). -/
def tokens (c : Text) : List Text := tokensFrom c []

/-! ## Numeric literals -/

/-- A decimal digit's value (R142). -/
def decimalDigit (c : Char) : Option Nat := if '0' ≤ c ∧ c ≤ '9' then some (c.toNat - 48) else none

/-- A hexadecimal digit's value, either case (R142). -/
def hexDigit (c : Char) : Option Nat :=
  if '0' ≤ c ∧ c ≤ '9' then some (c.toNat - 48)
  else if 'a' ≤ c ∧ c ≤ 'f' then some (c.toNat - 87)
  else if 'A' ≤ c ∧ c ≤ 'F' then some (c.toNat - 55)
  else none

/-- A binary digit's value (R142). -/
def binaryDigit (c : Char) : Option Nat := if c = '0' then some 0 else if c = '1' then some 1 else none

/-- The value of the digits of `t`, appended to the value `acc`; none if a character is no digit. -/
def digitsFrom (base : Nat) (digit : Char → Option Nat) : Nat → Text → Option Nat
  | acc, [] => some acc
  | acc, c :: cs =>
    match digit c with
    | some d => digitsFrom base digit (acc * base + d) cs
    | none => none

/-- The value of one or more digits (R142). -/
def digitsValue (base : Nat) (digit : Char → Option Nat) (t : Text) : Option Nat :=
  if t = [] then none else digitsFrom base digit 0 t

/-- A numeric literal: the complete grammar of R142. -/
def literalValue (t : Text) : Option Int :=
  match t with
  | '-' :: ds => (digitsValue 10 decimalDigit ds).map (fun (n : Nat) => -(n : Int))
  | '0' :: 'x' :: ds => (digitsValue 16 hexDigit ds).map Int.ofNat
  | '0' :: 'b' :: ds => (digitsValue 2 binaryDigit ds).map Int.ofNat
  | ds => (digitsValue 10 decimalDigit ds).map Int.ofNat

/-- A value that the signed 32-bit field holds (R143). -/
def fitsImm (v : Int) : Bool := decide (-2147483648 ≤ v) && decide (v ≤ 2147483647)

/-! ## Register names -/

/-- The ABI names in index order. The names are 40_assembler.md R134's; the index of each is the standard RISC-V integer
numbering, from general knowledge (10_state.md R24, D26, U14; PRESUMED, log 15). -/
def abiNames : List String :=
  ["zero", "ra", "sp", "gp", "tp", "t0", "t1", "t2", "s0", "s1", "a0", "a1", "a2", "a3", "a4", "a5"] ++
  ["a6", "a7", "s2", "s3", "s4", "s5", "s6", "s7", "s8", "s9", "s10", "s11", "t3", "t4", "t5", "t6"]

/-- The index of a name in a list of names. -/
def nameIndex (t : Text) : List String → Option Nat
  | [] => none
  | n :: ns => if t = n.toList then some 0 else (nameIndex t ns).map (· + 1)

/-- The number an `xN` name denotes: the letter x and a decimal number with no sign (R134). -/
def xNumber (t : Text) : Option Nat :=
  match t with
  | 'x' :: ds => digitsValue 10 decimalDigit ds
  | _ => none

/-- The index an ABI name denotes; `fp` is `s0` (R134). -/
def abiNumber (t : Text) : Option Nat := if t = "fp".toList then some 8 else nameIndex t abiNames

/-- A register token: an `xN` name, an ABI name, or the bare decimal index (R134, R135); none above 31 (R136). -/
def registerOf (t : Text) : Option Reg :=
  match ((xNumber t).or (abiNumber t)).or (digitsValue 10 decimalDigit t) with
  | some n => if h : n < 32 then some ⟨n, h⟩ else none
  | none => none

/-! ## Memory operands -/

/-- Cut a memory operand `offset(register)` into its literal's value, the literal's text and the register's text; none if
the token has another shape (R148). The register's text is not empty and holds no parenthesis (log 13). -/
def memoryOperand (t : Text) : Option (Int × Text × Text) :=
  let off := t.takeWhile (· ≠ '(')
  let rest := t.drop (off.length + 1)
  let reg := rest.dropLast
  match literalValue off with
  | none => none
  | some v =>
    if rest.getLast? = some ')' ∧ reg ≠ [] ∧ '(' ∉ reg ∧ ')' ∉ reg then some (v, off, reg) else none

end Sys2Proof.Machine
end

