-- ==== Sys2Proof/Machine/Assembler.lean ====
section
/-! DEFINITION. The two-pass assembler (40_assembler.md): source text to Instruction records and Label Table. -/

namespace Sys2Proof.Machine

/-- The kinds of ParseError (40_assembler.md R160). -/
inductive ParseErrorKind where
  | unsupportedInstruction
  | formatError
  | badRegister
  | badImmediate
  | badOperandCount
  | badLabel
  | duplicateLabel
  | programTooLarge
  deriving DecidableEq, Repr

/-- A ParseError carries its kind, the source line (and its number, counted from 1, R121) and the offending token (R160; log 14). -/
structure ParseError where
  kind       : ParseErrorKind
  lineNumber : Nat
  line       : Text
  token      : Text
  deriving DecidableEq, Repr

/-- A failed check inside one line: the kind and the token it names. -/
abbrev LineError := ParseErrorKind × Text

/-- The Label Table (10_state.md R35; log 20). -/
abbrev Labels := List (Text × Nat)

/-- The address of a label: names are compared as exact strings (40_assembler.md R125). -/
def Labels.find : Labels → Text → Option Nat
  | [], _ => none
  | (n, a) :: ls, t => if n = t then some a else Labels.find ls t

/-! ## Mnemonics -/

/-- A mnemonic of the table of 30_encoding.md R88, by class, with the record form it builds. -/
inductive Mnemonic where
  | rClass (build : Reg → Reg → Reg → Instr)
  | iArith (build : Reg → Reg → Word → Instr)
  | load   (build : Reg → Reg → Word → Instr)
  | store  (build : Reg → Reg → Word → Instr)
  | branch (build : Reg → Reg → Word → Instr)

/-- The table of 30_encoding.md R88: exactly these 34 mnemonics. -/
def mnemonicTable : List (String × Mnemonic) :=
  [("add", .rClass .add), ("sub", .rClass .sub), ("and", .rClass .and), ("or", .rClass .or), ("xor", .rClass .xor),
   ("sll", .rClass .sll), ("srl", .rClass .srl), ("sra", .rClass .sra), ("slt", .rClass .slt), ("sltu", .rClass .sltu)] ++
  [("addi", .iArith .addi), ("andi", .iArith .andi), ("ori", .iArith .ori), ("xori", .iArith .xori),
   ("slti", .iArith .slti), ("sltiu", .iArith .sltiu), ("slli", .iArith .slli), ("srli", .iArith .srli),
   ("srai", .iArith .srai)] ++
  [("lw", .load .lw), ("lb", .load .lb), ("lh", .load .lh), ("lbu", .load .lbu), ("lhu", .load .lhu), ("li", .load .li),
   ("sw", .store .sw), ("sb", .store .sb), ("sh", .store .sh)] ++
  [("beq", .branch .beq), ("bne", .branch .bne), ("blt", .branch .blt), ("bge", .branch .bge), ("bltu", .branch .bltu),
   ("bgeu", .branch .bgeu)]

/-- Look a mnemonic up in a table. -/
def findMnemonic (m : Text) : List (String × Mnemonic) → Option Mnemonic
  | [] => none
  | (n, k) :: rows => if m = n.toList then some k else findMnemonic m rows

/-- The mnemonic of a token already in lower case (R130). -/
def mnemonicOf (m : Text) : Option Mnemonic := findMnemonic m mnemonicTable

/-! ## Operands -/

/-- A register operand (R134 to R136). -/
def registerOperand (t : Text) : Except LineError Reg :=
  match registerOf t with
  | some r => .ok r
  | none => .error (.badRegister, t)

/-- A value as the record's signed 32-bit immediate, or BadImmediate naming the token (R141, R143). -/
def immediateOf (t : Text) (v : Int) : Except LineError Word :=
  if fitsImm v then .ok (BitVec.ofInt 32 v) else .error (.badImmediate, t)

/-- `imm-or-label`, `target-or-label`: the Label Table first, then a literal (R140 to R143). `here` is the address of the
instruction. -/
def immediateOperand (labels : Labels) (here : Nat) (t : Text) : Except LineError Word :=
  match labels.find t with
  | some a => immediateOf t ((a : Int) - here)
  | none =>
    match literalValue t with
    | some v => immediateOf t v
    | none => .error (.badImmediate, t)

/-- A memory operand: its base register and offset (R148). `m` is the mnemonic, which a FormatError names. DESIGN CHOICE,
log 14: a BadImmediate names the offset's text and a BadRegister the register's, not the whole operand token of R129. -/
def memoryOperandOf (m t : Text) : Except LineError (Reg × Word) :=
  match memoryOperand t with
  | none => .error (.formatError, m)
  | some (v, off, reg) => do
    let imm ← immediateOf off v
    let base ← registerOperand reg
    .ok (base, imm)

/-- Decode the operands of one instruction line, left to right, after the operand count (R131, R132, R145 to R150). -/
def decodeOperands (labels : Labels) (here : Nat) (m : Text) (k : Mnemonic) (ops : List Text) : Except LineError Instr :=
  match k, ops with
  | .rClass build, [a, b, c] => do
    let rd ← registerOperand a
    let rs1 ← registerOperand b
    let rs2 ← registerOperand c
    .ok (build rd rs1 rs2)
  | .iArith build, [a, b, c] => do
    let rd ← registerOperand a
    let rs1 ← registerOperand b
    let imm ← immediateOperand labels here c
    .ok (build rd rs1 imm)
  | .load build, [a, b] => do
    let rd ← registerOperand a
    let (rs1, imm) ← memoryOperandOf m b
    .ok (build rd rs1 imm)
  | .store build, [a, b] => do
    let rs2 ← registerOperand a
    let (rs1, imm) ← memoryOperandOf m b
    .ok (build rs1 rs2 imm)
  | .branch build, [a, b, c] => do
    let rs1 ← registerOperand a
    let rs2 ← registerOperand b
    let imm ← immediateOperand labels here c
    .ok (build rs1 rs2 imm)
  | .rClass _, _ | .iArith _, _ | .load _, _ | .store _, _ | .branch _, _ => .error (.badOperandCount, m)

/-- Decode one cleaned instruction line: the mnemonic in lower case, then its operands (R128 to R132). -/
def decodeLine (labels : Labels) (here : Nat) (cleaned : Text) : Except LineError Instr :=
  match tokens cleaned with
  | [] => .error (.unsupportedInstruction, [])
  | t :: ops =>
    let m := t.map Char.toLower
    match mnemonicOf m with
    | none => .error (.unsupportedInstruction, m)
    | some k => decodeOperands labels here m k ops

/-! ## The two passes -/

/-- A source line with its number, counted from 1 (R121). -/
abbrev NumberedLine := Text × Nat

/-- Pass 1 over the remaining lines, from an address and the labels registered so far: the labels, in order, and the final
address (R124, R125, R159). -/
def passOne : List NumberedLine → Nat → Labels → Except ParseError (Labels × Nat)
  | [], a, labels => .ok (labels, a)
  | (l, n) :: ls, a, labels =>
    match classifyLine l with
    | .blank => passOne ls a labels
    | .instruction _ => passOne ls (a + 4) labels
    | .label name =>
      if name = [] then .error ⟨.badLabel, n, l, clean l⟩
      else if (labels.find name).isSome then .error ⟨.duplicateLabel, n, l, name⟩
      else passOne ls a (labels ++ [(name, a)])

/-- The record of an instruction at an address (R133): normalised (30_encoding.md R89), with its packed word, its address
and its source line unmodified (30_encoding.md R83). -/
def recordOf (i : Instr) (a : Nat) (line : Text) : Record := { word := encode i.recordForm, address := a, text := line }

/-- Pass 2 over the remaining lines, from an address (R128, R132, R133, R159). -/
def passTwo (labels : Labels) : List NumberedLine → Nat → Except ParseError (List Record)
  | [], _ => .ok []
  | (l, n) :: ls, a =>
    match classifyLine l with
    | .blank | .label _ => passTwo labels ls a
    | .instruction c =>
      match decodeLine labels a c with
      | .error (kind, token) => .error ⟨kind, n, l, token⟩
      | .ok i =>
        match passTwo labels ls (a + 4) with
        | .error e => .error e
        | .ok rs => .ok (recordOf i a l :: rs)

/-- `assemble(sourceText)` (R120, R159): a pure function of the text. -/
def assemble (source : Text) : Except ParseError (List Record × Labels) :=
  let lines := (splitLines source).zipIdx 1
  match passOne lines 0 [] with
  | .error e => .error e
  | .ok (labels, a) =>
    if 4 * Config.maxInstructions < a then
      let last := lines.getLastD ([], 0)
      .error ⟨.programTooLarge, last.2, last.1, []⟩
    else
      match passTwo labels lines 0 with
      | .error e => .error e
      | .ok rs => .ok (rs, labels)

end Sys2Proof.Machine
end

