-- ==== Sys2Proof/Machine/Engine.lean ====
section
/-! DEFINITION. The host's operations at the CORE's boundary (45_engine.md section 4): `step` with its StepOutcome, `run`,
`reset`, `load` and the inspectors. -/

namespace Sys2Proof.Machine

/-- The StepOutcome of one `step()` call (00_scope.md R12); it is also the payload of the step-completion event, one per
call (45_engine.md R268). -/
inductive StepOutcome where
  /-- The instruction at this index was executed (45_engine.md R267). -/
  | executed (instructionIndex : Nat)
  | halted
  | error (e : ExecutionError)
  /-- One of the spec's two faults (45_engine.md R269). -/
  | fault (f : Fault)
  /-- The model's own, for an instruction it gives no meaning; there is none. -/
  | refused (r : Refusal)
  deriving DecidableEq, Repr

/-- The message of an ExecutionError, "naming the instruction's type" or the pc (45_engine.md R264, R266; log 23). -/
def ExecutionError.message : ExecutionError → String
  | .misalignedFetch pc => "misaligned fetch at " ++ toString (u32 pc)
  | .unrecognisedRecord ty _ => "unrecognised instruction record of type " ++ toString ty.toNat

/-- `step()` as the host calls it: the outcome and the state it leaves (45_engine.md R261). Error and Fault leave the
state as it was (R266, R269). -/
def stepCall (s : State) : StepOutcome × State :=
  match step s with
  | .next t => (if s.fetch = .outside then .halted else .executed (u32 s.pc / 4), t)
  | .fault (.executionError e) => (.error e, s)
  | .fault f => (.fault f, s)
  | .refused r => (.refused r, s)

/-- `reset()`: "clears architectural state, keeps loaded program" (45_engine.md R275). -/
def State.hostReset (s : State) : State :=
  { State.powerOn s.dataBytes with
    status := if 0 < s.instructionCount then .ready else .idle
    imem := s.imem
    labels := s.labels }

/-- `load(sourceText)`: a success replaces the program and the labels and then resets, and returns instructionCount; a
failure returns the ParseError and changes nothing (45_engine.md R276 to R278). -/
def load (source : Text) (s : State) : Except ParseError Nat × State :=
  match assemble source with
  | .error e => (.error e, s)
  | .ok (imem, labels) => (.ok imem.length, State.hostReset { s with imem := imem, labels := labels })

/-- What `run()` returns (45_engine.md R273, D28). -/
inductive RunResult where
  | halted
  | cancelled
  | stopped (o : StepOutcome)
  deriving DecidableEq, Repr

/-- An outcome after which a run loop must stop: Error or Fault (45_engine.md R273). -/
def StepOutcome.stopsRun : StepOutcome → Bool
  | .executed _ | .halted => false
  | .error _ | .fault _ | .refused _ => true

/-- `run(cancel)` as the loop of 45_engine.md R273, without a bound: `Returns cancel k s r t` says that the loop, about to
make its test number k in the state s, returns r and leaves the state t. `cancel k` is the run flag observed at test k.
A run that does not end returns nothing (U13). -/
inductive Returns (cancel : Nat → Bool) : Nat → State → RunResult → State → Prop where
  | halted {k s} : s.status = .halted → Returns cancel k s .halted s
  | cancelled {k s} : s.status ≠ .halted → cancel k = true → Returns cancel k s .cancelled s
  | stopped {k s} : s.status ≠ .halted → cancel k = false → (stepCall s).1.stopsRun = true →
      Returns cancel k s (.stopped (stepCall s).1) (stepCall s).2
  | goesOn {k s r t} : s.status ≠ .halted → cancel k = false → (stepCall s).1.stopsRun = false →
      Returns cancel (k + 1) (stepCall s).2 r t → Returns cancel k s r t

/-- The same loop, to be evaluated: at most `fuel` tests; none if it has not returned by then. The bound is a proof device
and no part of the hardware (93_implementation_defined.md U13; log 10). -/
def runFor (cancel : Nat → Bool) : (fuel : Nat) → (k : Nat) → State → Option (RunResult × State)
  | 0, _, _ => none
  | fuel + 1, k, s =>
    if s.status = .halted then some (.halted, s)
    else if cancel k then some (.cancelled, s)
    else if (stepCall s).1.stopsRun then some (.stopped (stepCall s).1, (stepCall s).2)
    else runFor cancel fuel (k + 1) (stepCall s).2

/-- `inspectRegisters()`: 32 signed values, in order (45_engine.md R279). -/
def inspectRegisters (s : State) : List Int := (List.finRange 32).map (fun r => s32 (s.readReg r))

/-- `inspectMemory(range)`: every multiple of 4 that lies in the range and in 0 .. N-1, with its word's signed reading
(20_memory.md R66, D29; log 11). -/
def inspectMemory (range : Nat → Bool) (s : State) : List (Nat × Int) :=
  (((List.range s.dataBytes).filter (fun a => a % 4 = 0)).filter range).map (fun a => (a, s32 (s.mem.read a)))

/-- `currentPC()`: the pc as an unsigned number (45_engine.md R280). -/
def currentPC (s : State) : Nat := u32 s.pc

/-- `isHalted()` (10_state.md R31, 45_engine.md R280). -/
def isHalted (s : State) : Bool := decide (s.status = .halted)

end Sys2Proof.Machine
end

