-- ==== Sys2Proof/Safety.lean ====
section
/-! DEFINITION. What counts as a legal state, a reachable state, a safe run and the end of a run. -/

namespace Sys2Proof.Machine

/-- An allowed data-memory size N (00_scope.md R7). -/
abbrev SizeOk (n : Nat) : Prop := n % 4 = 0 ∧ 0 < n ∧ n ≤ 2147483648

/-- A record in its place: its address is four times its index (30_encoding.md R82) and its word is one of the 27 record
forms (30_encoding.md R95). -/
def Record.okAt (k : Nat) (r : Record) : Prop := r.address = 4 * k ∧ ∃ i, decode r.word = .ok i

/-- What holds in every reachable state. -/
structure State.Inv (s : State) : Prop where
  /-- N is an allowed size (00_scope.md R7). -/
  size : SizeOk s.dataBytes
  /-- Slot 0 of the Register File is 0 (10_state.md R23). -/
  slot0 : s.regs[0] = 0
  /-- The Data Memory's list is in its canonical form. -/
  memWf : s.mem.wf
  /-- Every listed cell is one of the N/4 cells (20_memory.md R50). -/
  memCells : ∀ c ∈ s.mem, c.1 % 4 = 0 ∧ c.1 < s.dataBytes
  /-- The program is within its bound (00_scope.md R8). -/
  count : s.instructionCount ≤ Config.maxInstructions
  /-- Every record stands in its place and is a record form. -/
  records : ∀ (k : Nat) (r : Record), s.imem[k]? = some r → r.okAt k
  /-- Every label's address is a multiple of 4, at most the end of the program (10_state.md R35, 40_assembler.md R126). -/
  labelsOk : ∀ l ∈ s.labels, l.2 % 4 = 0 ∧ l.2 ≤ 4 * s.instructionCount
  /-- Halted implies that the pc is outside the valid range (10_state.md R30). -/
  halted : s.status = .halted → 4 * s.instructionCount ≤ u32 s.pc
  /-- Idle: no program loaded (10_state.md R30), and the pc of a reset. -/
  idle : s.status = .idle → s.instructionCount = 0 ∧ s.pc = 0
  /-- Ready: a program is loaded (10_state.md R30). -/
  ready : s.status = .ready → 0 < s.instructionCount

/-- The states an engine can be in: construction, then any host operations in any order (45_engine.md R281, 70_reset_and_hazards.md
R344). The inspectors change nothing. -/
inductive Reachable : State → Prop where
  | powerOn {n} : SizeOk n → Reachable (State.powerOn n)
  | load {s} (source : Text) : Reachable s → Reachable (load source s).2
  | reset {s} : Reachable s → Reachable s.hostReset
  | step {s} : Reachable s → Reachable (stepCall s).2

/-- Every branch of the program has an offset that is a multiple of 4, as a label gives (60_exceptions.md R305,
70_reset_and_hazards.md R346). -/
def State.branchesAligned (s : State) : Prop :=
  ∀ r ∈ s.imem, ∀ i, decode r.word = .ok i → i.op.recordType = .b → u32 i.immOrZero % 4 = 0

/-- The end of a run: "the first moment `status = Halted`" (45_engine.md R284). -/
def State.ended (s : State) : Prop := s.status = .halted

/-- A step that does not stop. -/
def State.stepSafe (s : State) : Prop := ∃ t, step s = .next t

/-- A run of `n` steps that reaches no ExecutionError, no fault and no refusal (60_exceptions.md R308). -/
def State.safeFor : Nat → State → Prop
  | 0, _ => True
  | n + 1, s => ∃ t, step s = .next t ∧ State.safeFor n t

end Sys2Proof.Machine
end

