-- ==== Sys2Proof/Certificates/Slice0/Obligations.lean ====
section
/-! DEFINITION. The statements for the provers, and the few predicates they are written in. Spec formulas are written here
in exact integer arithmetic, as the spec writes them; the model's ALU is written in bit-vector operations. -/

namespace Sys2Proof.Machine

/-! ## Frames -/

/-- Every register but one keeps its value. -/
def SameRegsBut (rd : Reg) (s t : State) : Prop := ∀ q, q ≠ rd → t.readReg q = s.readReg q

/-- Every register keeps its value. -/
def SameRegs (s t : State) : Prop := ∀ q, t.readReg q = s.readReg q

/-- Every cell of the Data Memory keeps its word. -/
def SameMem (s t : State) : Prop := ∀ a, t.mem.read a = s.mem.read a

/-- Every cell but the one at an address keeps its word. -/
def SameMemBut (b : Nat) (s t : State) : Prop := ∀ a, a ≠ b → t.mem.read a = s.mem.read a

/-- The program, the Label Table and the parameter N are unchanged. -/
def SameProgram (s t : State) : Prop := t.imem = s.imem ∧ t.labels = s.labels ∧ t.dataBytes = s.dataBytes

/-- `pc <- pc + 4` (10_state.md R28), where the sum is below 2^32, as it is wherever an instruction of a loaded program
stands (00_scope.md R8). What is stored past that is the spec's decision D3: see PcArithmeticWraps. -/
def PassesOn (s t : State) : Prop := u32 s.pc + 4 < 4294967296 → u32 t.pc = u32 s.pc + 4

/-- What every register-writing instruction leaves: its destination holds `v` (register 0 stays 0), the pc has passed on,
and nothing else changed. -/
def RegisterResult (s t : State) (rd : Reg) (v : Word) : Prop :=
  t.readReg rd = (if rd = 0 then 0 else v) ∧ SameRegsBut rd s t ∧ PassesOn s t ∧ SameMem s t ∧ SameProgram s t ∧
  t.status = s.status

/-- What a branch with condition `taken` leaves (44_branch.md R245): no register and no cell changes. -/
def BranchResult (s t : State) (imm : Word) (taken : Prop) : Prop :=
  SameRegs s t ∧ SameMem s t ∧ SameProgram s t ∧
  (¬taken → PassesOn s t ∧ t.status = s.status) ∧
  (taken → imm = 0 → t.status = .halted ∧ (4 * s.instructionCount < 4294967296 → u32 t.pc = 4 * s.instructionCount)) ∧
  (taken → imm ≠ 0 → (u32 t.pc : Int) = (u32 s.pc + s32 imm) % 4294967296 ∧ t.status = s.status)

/-! ## The formulas of 41_alu_register.md R180 -/

/-- `(u32(a) + u32(b)) mod 2^32`. -/
def addFormula (a b : Word) : Word := BitVec.ofNat 32 ((u32 a + u32 b) % 4294967296)
/-- `(u32(a) - u32(b)) mod 2^32`. -/
def subFormula (a b : Word) : Word := BitVec.ofInt 32 (((u32 a : Int) - u32 b) % 4294967296)
/-- `sh = u32(b) mod 32`; `(u32(a) * 2^sh) mod 2^32`. -/
def sllFormula (a b : Word) : Word := BitVec.ofNat 32 ((u32 a * 2 ^ (u32 b % 32)) % 4294967296)
/-- `floor(u32(a) / 2^sh)`. -/
def srlFormula (a b : Word) : Word := BitVec.ofNat 32 (u32 a / 2 ^ (u32 b % 32))
/-- The bit-vector of `floor(s32(a) / 2^sh)`. -/
def sraFormula (a b : Word) : Word := BitVec.ofInt 32 (Int.fdiv (s32 a) (2 ^ (u32 b % 32)))
/-- `1 if s32(a) < s32(b) else 0`. -/
def sltFormula (a b : Word) : Word := if s32 a < s32 b then 1 else 0
/-- `1 if u32(a) < u32(b) else 0`. -/
def sltuFormula (a b : Word) : Word := if u32 a < u32 b then 1 else 0
/-- `v` is `a` and `b` combined bit by bit over 32 bits. -/
def Bitwise (f : Bool → Bool → Bool) (a b v : Word) : Prop := ∀ k, k < 32 → v.getLsbD k = f (a.getLsbD k) (b.getLsbD k)

/-! ## The stores of a run -/

/-- The cell and the word that the next step stores, if its instruction is a store. -/
def pendingStore (s : State) : Option (Nat × Word) :=
  match s.fetch with
  | .record r =>
    match decode r.word with
    | .ok (.sw rs1 rs2 imm) => some ((s.effectiveAddress rs1 imm).toNat, s.readReg rs2)
    | _ => none
  | .outside | .misaligned => none

/-- A run of steps from a state, with the stores it made, oldest first. -/
inductive StoreRun (s : State) : List (Nat × Word) → State → Prop where
  | start : StoreRun s [] s
  | step {log t u} : StoreRun s log t → step t = .next u → StoreRun s (log ++ (pendingStore t).toList) u

/-- The word of the latest store to an address, or `init` if there was none. -/
def latestStore (log : List (Nat × Word)) (a : Nat) (init : Word) : Word :=
  log.foldl (fun v c => if c.1 = a then c.2 else v) init

/-- A step's outcome with another program text and Label Table around the same state. -/
def withProgram (imem : List Record) (labels : List (Text × Nat)) : StepResult → StepResult
  | .next t => .next { t with imem := imem, labels := labels }
  | .fault f => .fault f
  | .refused r => .refused r

/-- The record at the pc decodes to this instruction. -/
def Fetches (s : State) (i : Instr) : Prop :=
  u32 s.pc % 4 = 0 ∧ ∃ r, s.imem[u32 s.pc / 4]? = some r ∧ decode r.word = .ok i

/-- The instruction is a branch of immediate 0 whose condition holds: the self-loop halt (44_branch.md R246). -/
def TakenSelfBranch (s : State) (i : Instr) : Prop :=
  i.op.recordType = .b ∧ i.immOrZero = 0 ∧ evaluate i.op (s.readReg i.rs1OrZero) (s.readReg i.rs2OrZero) = true

/-- The load mnemonics, with their constructors (30_encoding.md R88). -/
def loadMnemonics : List (Reg → Reg → Word → Instr) := [.lw, .lb, .lh, .lbu, .lhu, .li]

/-- The store mnemonics, with their constructors (30_encoding.md R88). -/
def storeMnemonics : List (Reg → Reg → Word → Instr) := [.sw, .sb, .sh]

/-! ## Source text (40_assembler.md) -/

/-- The instruction lines among some lines, in order, unmodified (R123). -/
def instructionLinesOf (lines : List Text) : List Text :=
  lines.filter (fun l => clean l ≠ [] ∧ (clean l).getLast? ≠ some ':')

/-- The instruction lines of a source text (R121, R123). -/
def instructionLines (source : Text) : List Text := instructionLinesOf (splitLines source)

/-- A label line and its name: the cleaned line without its last colon, trimmed once more (R123, R125). -/
def LabelLine (line name : Text) : Prop := ∃ c, clean line = c ++ [':'] ∧ name = trim c

/-- The source has a label line of this name, and the address is four times the number of instruction lines before it
(R124, R126). -/
def LabelAt (source name : Text) (a : Nat) : Prop :=
  ∃ (k : Nat) (line : Text), (splitLines source)[k]? = some line ∧ LabelLine line name ∧
    a = 4 * (instructionLinesOf ((splitLines source).take k)).length

/-- The digits and their values, hexadecimal ones in either case (R142). -/
def digitValues : List (Char × Nat) :=
  "0123456789".toList.zipIdx ++ "abcdef".toList.zipIdx 10 ++ "ABCDEF".toList.zipIdx 10

/-- One or more digits of a base, the most significant first, and the number they denote (R142). -/
def Numeral (base : Nat) (ds : Text) (n : Nat) : Prop :=
  ds ≠ [] ∧ ∃ vs : List Nat, List.Forall₂ (fun c v => (c, v) ∈ digitValues ∧ v < base) ds vs ∧
    n = Nat.ofDigits base vs.reverse

/-- The grammar of R142 with the value of each form. -/
def Literal (t : Text) (v : Int) : Prop :=
  (∃ ds n, t = '-' :: ds ∧ Numeral 10 ds n ∧ v = -(n : Int)) ∨ (∃ n, Numeral 10 t n ∧ v = (n : Int)) ∨
  (∃ ds n, t = '0' :: 'x' :: ds ∧ Numeral 16 ds n ∧ v = (n : Int)) ∨
  (∃ ds n, t = '0' :: 'b' :: ds ∧ Numeral 2 ds n ∧ v = (n : Int))

/-- The ABI names with the indexes of 10_state.md R24 (general knowledge, D26; log 15). -/
def abiTable : List (String × Nat) :=
  [("zero", 0), ("ra", 1), ("sp", 2), ("gp", 3), ("tp", 4), ("t0", 5), ("t1", 6), ("t2", 7), ("s0", 8), ("fp", 8), ("s1", 9)] ++
  [("a0", 10), ("a1", 11), ("a2", 12), ("a3", 13), ("a4", 14), ("a5", 15), ("a6", 16), ("a7", 17)] ++
  [("s2", 18), ("s3", 19), ("s4", 20), ("s5", 21), ("s6", 22), ("s7", 23), ("s8", 24), ("s9", 25), ("s10", 26), ("s11", 27)] ++
  [("t3", 28), ("t4", 29), ("t5", 30), ("t6", 31)]

/-- A token names a register: `xN`, an ABI name, or the bare decimal index (R134, R135). -/
def RegisterToken (t : Text) (r : Reg) : Prop :=
  (∃ ds, t = 'x' :: ds ∧ Numeral 10 ds r) ∨ (∃ p ∈ abiTable, t = p.1.toList ∧ p.2 = r.val) ∨ Numeral 10 t r

/-- A memory operand `offset(register)` with its immediate and its base (R148). -/
def MemoryToken (t : Text) (imm : Word) (base : Reg) : Prop :=
  ∃ off reg, t = off ++ '(' :: (reg ++ [')']) ∧ Literal off (s32 imm) ∧ RegisterToken reg base

/-- The mnemonics of class R (30_encoding.md R88), each with what it builds from rd, rs1, rs2. -/
def rSyntax : List (String × (Reg → Reg → Reg → Instr)) :=
  [("add", .add), ("sub", .sub), ("and", .and), ("or", .or), ("xor", .xor), ("sll", .sll), ("srl", .srl), ("sra", .sra),
   ("slt", .slt), ("sltu", .sltu)]

/-- The mnemonics of class I-arith, each with what it builds from rd, rs1, imm. -/
def iArithSyntax : List (String × (Reg → Reg → Word → Instr)) :=
  [("addi", .addi), ("andi", .andi), ("ori", .ori), ("xori", .xori), ("slti", .slti), ("sltiu", .sltiu), ("slli", .slli),
   ("srli", .srli), ("srai", .srai)]

/-- The mnemonics of class Load, each with what it builds from rd, rs1, imm. -/
def loadSyntax : List (String × (Reg → Reg → Word → Instr)) :=
  [("lw", .lw), ("lb", .lb), ("lh", .lh), ("lbu", .lbu), ("lhu", .lhu), ("li", .li)]

/-- The mnemonics of class Store, each with what it builds from rs1, rs2, imm. -/
def storeSyntax : List (String × (Reg → Reg → Word → Instr)) := [("sw", .sw), ("sb", .sb), ("sh", .sh)]

/-- The mnemonics of class Branch, each with what it builds from rs1, rs2, imm. -/
def branchSyntax : List (String × (Reg → Reg → Word → Instr)) :=
  [("beq", .beq), ("bne", .bne), ("blt", .blt), ("bge", .bge), ("bltu", .bltu), ("bgeu", .bgeu)]

/-- A mnemonic `m` with operand tokens `ops` is this instruction, class by class (R145 to R150). A store's first operand
is its value source rs2, and the register in its parentheses is its base rs1 (R149). -/
def LineSyntax (labels : Labels) (here : Nat) (m : Text) (ops : List Text) (i : Instr) : Prop :=
  (∃ p ∈ rSyntax, m = p.1.toList ∧ ∃ a b c rd rs1 rs2, ops = [a, b, c] ∧ RegisterToken a rd ∧ RegisterToken b rs1 ∧
    RegisterToken c rs2 ∧ i = p.2 rd rs1 rs2) ∨
  (∃ p ∈ iArithSyntax, m = p.1.toList ∧ ∃ a b c rd rs1 imm, ops = [a, b, c] ∧ RegisterToken a rd ∧ RegisterToken b rs1 ∧
    immediateOperand labels here c = .ok imm ∧ i = p.2 rd rs1 imm) ∨
  (∃ p ∈ loadSyntax, m = p.1.toList ∧ ∃ a b rd rs1 imm, ops = [a, b] ∧ RegisterToken a rd ∧ MemoryToken b imm rs1 ∧
    i = p.2 rd rs1 imm) ∨
  (∃ p ∈ storeSyntax, m = p.1.toList ∧ ∃ a b rs1 rs2 imm, ops = [a, b] ∧ RegisterToken a rs2 ∧ MemoryToken b imm rs1 ∧
    i = p.2 rs1 rs2 imm) ∨
  (∃ p ∈ branchSyntax, m = p.1.toList ∧ ∃ a b c rs1 rs2 imm, ops = [a, b, c] ∧ RegisterToken a rs1 ∧ RegisterToken b rs2 ∧
    immediateOperand labels here c = .ok imm ∧ i = p.2 rs1 rs2 imm)

end Sys2Proof.Machine

open Sys2Proof Sys2Proof.Machine

/-! ## Encoding -/

/-- Every record form survives its packed word (30_encoding.md R93, R94; the word is the spec's own decision D15). -/
def Obligations.RecordFormsRoundTrip : Prop := ∀ i : Instr, i.wellFormed = true → decode (encode i) = .ok i

/-- Normalisation (30_encoding.md R89): the word of a Load-class mnemonic decodes to lw, of a Store-class one to sw. -/
def Obligations.AliasWordsAreTheirRecords : Prop :=
  (∀ m ∈ loadMnemonics, ∀ rd rs1 imm, decode (encode (m rd rs1 imm)) = .ok (.lw rd rs1 imm)) ∧
  (∀ m ∈ storeMnemonics, ∀ rs1 rs2 imm, decode (encode (m rs1 rs2 imm)) = .ok (.sw rs1 rs2 imm))

/-- A decoded word is one of the 27 record forms, and the instruction holds the word's own fields (R93, R94; D15). -/
def Obligations.DecodedFieldsAreTheWordsFields : Prop :=
  ∀ w i, decode w = .ok i →
    i.wellFormed = true ∧ zeroField w = 0 ∧ typeField w = i.op.recordType.number ∧ opField w = i.op.number ∧
    rs1Field w = i.rs1OrZero ∧
    ((i.op.recordType = .r ∨ i.op.recordType = .i) → rdField w = i.rdOrZero) ∧
    (i.op.recordType ≠ .i → rs2Field w = i.rs2OrZero) ∧
    (i.op.recordType ≠ .r → immField w = i.immOrZero)

/-- A word decodes exactly when bits 63:55 are 0 and its (type, op) is one of the 27 pairs (R94; D15). -/
def Obligations.DecodesExactlyWellFormedWords : Prop :=
  ∀ w, (∃ i, decode w = .ok i) ↔
    zeroField w = 0 ∧ ∃ o : Op, typeField w = o.recordType.number ∧ opField w = o.number

/-- Words the spec prints decode to the instructions it prints beside them (95_test_vectors.md S3, S7, P1, P2, P3). -/
def Obligations.PrintedWordsDecode : Prop :=
  decode 0x003A800000000000 = .ok (.beq 0 0 0) ∧ decode 0x0015000100000007 = .ok (.addi 1 0 7) ∧
  decode 0x003A8420FFFFFFFC = .ok (.beq 1 1 (-4)) ∧ decode 0x0000044200000000 = .ok (.add 2 2 1) ∧
  decode 0x0019800600000008 = .ok (.lw 6 0 8) ∧ decode 0x002A1C000000000C = .ok (.sw 0 7 12) ∧
  decode 0x0019002200000001 = .ok (.srai 2 1 1)

/-! ## Power-on, reset, inspection -/

/-- The power-on state (10_state.md R38; pc and status are the spec's decision D23). -/
def Obligations.PowerOnIsEmptyAndZero : Prop :=
  ∀ n, (∀ r, (State.powerOn n).readReg r = 0) ∧ (∀ a, (State.powerOn n).mem.read a = 0) ∧
    u32 (State.powerOn n).pc = 0 ∧ (State.powerOn n).status = .idle ∧ (State.powerOn n).instructionCount = 0 ∧
    (State.powerOn n).labels = [] ∧ (State.powerOn n).dataBytes = n ∧ isHalted (State.powerOn n) = false

/-- The invariant holds at power-on, for every allowed N, and so in the model's reset state, whatever its N (log 1). -/
def Obligations.PowerOnMeetsInv : Prop := (∀ n, SizeOk n → (State.powerOn n).Inv) ∧ State.reset.Inv

/-- `reset()` (45_engine.md R275). -/
def Obligations.ResetClearsAndKeepsProgram : Prop :=
  ∀ s : State, (∀ r, s.hostReset.readReg r = 0) ∧ (∀ a, s.hostReset.mem.read a = 0) ∧ u32 s.hostReset.pc = 0 ∧
    (0 < s.instructionCount → s.hostReset.status = .ready) ∧ (s.instructionCount = 0 → s.hostReset.status = .idle) ∧
    SameProgram s s.hostReset

/-- Register 0 (10_state.md R23): a write to another register reads back and leaves the rest; a write to register 0
changes nothing; no step ends with a non-zero slot 0; slot 0 is 0 in every reachable state. -/
def Obligations.RegisterZeroNeverHoldsAValue : Prop :=
  (∀ (s : State) i v, i ≠ 0 → (s.writeReg i v).readReg i = v ∧ SameRegsBut i s (s.writeReg i v)) ∧
  (∀ (s : State) v, s.writeReg 0 v = s) ∧
  (∀ s t, s.regs[0] = 0 → step s = .next t → t.regs[0] = 0) ∧ (∀ s, Reachable s → s.regs[0] = 0 ∧ s.readReg 0 = 0)

/-- `inspectRegisters()` (45_engine.md R279). -/
def Obligations.InspectRegistersShowsThirtyTwo : Prop :=
  ∀ s, (inspectRegisters s).length = 32 ∧ (∀ r : Reg, (inspectRegisters s)[r.val]? = some (s32 (s.readReg r))) ∧
    (inspectRegisters s)[0]? = some 0

/-- `inspectMemory(range)` (20_memory.md R66; which addresses it lists is the spec's decision D29). -/
def Obligations.InspectMemoryShowsTheCellsInRange : Prop :=
  ∀ range s a v, (a, v) ∈ inspectMemory range s ↔
    a % 4 = 0 ∧ a < s.dataBytes ∧ range a = true ∧ v = s32 (s.mem.read a)

/-! ## The ALU and the Branch Evaluator -/

/-- The ALU's table, every op (41_alu_register.md R180, R193). -/
def Obligations.AluFollowsItsTable : Prop :=
  ∀ a b : Word,
    (∀ o ∈ [Op.add, .addi], alu o a b = addFormula a b) ∧ alu .sub a b = subFormula a b ∧
    (∀ o ∈ [Op.and, .andi], Bitwise (· && ·) a b (alu o a b)) ∧
    (∀ o ∈ [Op.or, .ori], Bitwise (· || ·) a b (alu o a b)) ∧
    (∀ o ∈ [Op.xor, .xori], Bitwise (· ^^ ·) a b (alu o a b)) ∧
    (∀ o ∈ [Op.sll, .slli], alu o a b = sllFormula a b) ∧ (∀ o ∈ [Op.srl, .srli], alu o a b = srlFormula a b) ∧
    (∀ o ∈ [Op.sra, .srai], alu o a b = sraFormula a b) ∧ (∀ o ∈ [Op.slt, .slti], alu o a b = sltFormula a b) ∧
    (∀ o ∈ [Op.sltu, .sltiu], alu o a b = sltuFormula a b) ∧
    (∀ o ∈ [Op.lw, .sw, .beq, .bne, .blt, .bge, .bltu, .bgeu], alu o a b = 0)

/-- The Branch Evaluator's table, every op (44_branch.md R240, R241). -/
def Obligations.EvaluatorFollowsItsTable : Prop :=
  ∀ a b : Word,
    (evaluate .beq a b = true ↔ ∀ k, k < 32 → a.getLsbD k = b.getLsbD k) ∧
    (evaluate .bne a b = true ↔ ∃ k, k < 32 ∧ a.getLsbD k ≠ b.getLsbD k) ∧
    (evaluate .blt a b = true ↔ s32 a < s32 b) ∧ (evaluate .bge a b = true ↔ s32 a ≥ s32 b) ∧
    (evaluate .bltu a b = true ↔ u32 a < u32 b) ∧ (evaluate .bgeu a b = true ↔ u32 a ≥ u32 b) ∧
    (∀ o : Op, o.recordType ≠ .b → evaluate o a b = false)

/-! ## Register-register and register-immediate instructions: each completes, with this result and this frame -/

/-- `add`, `sub` (41_alu_register.md R183, R184). -/
def Obligations.AddSubResults : Prop :=
  ∀ rd rs1 rs2 (s : State),
    (∃ t, exec (.add rd rs1 rs2) s = .next t ∧
      RegisterResult s t rd (addFormula (s.readReg rs1) (s.readReg rs2))) ∧
    (∃ t, exec (.sub rd rs1 rs2) s = .next t ∧
      RegisterResult s t rd (subFormula (s.readReg rs1) (s.readReg rs2)))

/-- `and`, `or`, `xor` (41_alu_register.md R185 to R187). -/
def Obligations.AndOrXorResults : Prop :=
  ∀ rd rs1 rs2 (s : State),
    (∃ t v, exec (.and rd rs1 rs2) s = .next t ∧ Bitwise (· && ·) (s.readReg rs1) (s.readReg rs2) v ∧
      RegisterResult s t rd v) ∧
    (∃ t v, exec (.or rd rs1 rs2) s = .next t ∧ Bitwise (· || ·) (s.readReg rs1) (s.readReg rs2) v ∧
      RegisterResult s t rd v) ∧
    (∃ t v, exec (.xor rd rs1 rs2) s = .next t ∧ Bitwise (· ^^ ·) (s.readReg rs1) (s.readReg rs2) v ∧
      RegisterResult s t rd v)

/-- `sll`, `srl`, `sra` (41_alu_register.md R188 to R190). -/
def Obligations.ShiftResults : Prop :=
  ∀ rd rs1 rs2 (s : State),
    (∃ t, exec (.sll rd rs1 rs2) s = .next t ∧
      RegisterResult s t rd (sllFormula (s.readReg rs1) (s.readReg rs2))) ∧
    (∃ t, exec (.srl rd rs1 rs2) s = .next t ∧
      RegisterResult s t rd (srlFormula (s.readReg rs1) (s.readReg rs2))) ∧
    (∃ t, exec (.sra rd rs1 rs2) s = .next t ∧
      RegisterResult s t rd (sraFormula (s.readReg rs1) (s.readReg rs2)))

/-- `slt`, `sltu` (41_alu_register.md R191, R192). -/
def Obligations.SetLessResults : Prop :=
  ∀ rd rs1 rs2 (s : State),
    (∃ t, exec (.slt rd rs1 rs2) s = .next t ∧
      RegisterResult s t rd (sltFormula (s.readReg rs1) (s.readReg rs2))) ∧
    (∃ t, exec (.sltu rd rs1 rs2) s = .next t ∧
      RegisterResult s t rd (sltuFormula (s.readReg rs1) (s.readReg rs2)))

/-- `addi` (42_alu_immediate.md R201), with the full 32-bit immediate. -/
def Obligations.AddiResult : Prop :=
  ∀ rd rs1 imm (s : State),
    ∃ t, exec (.addi rd rs1 imm) s = .next t ∧ RegisterResult s t rd (addFormula (s.readReg rs1) imm)

/-- `andi`, `ori`, `xori` (42_alu_immediate.md R202 to R204). -/
def Obligations.LogicImmediateResults : Prop :=
  ∀ rd rs1 imm (s : State),
    (∃ t v, exec (.andi rd rs1 imm) s = .next t ∧ Bitwise (· && ·) (s.readReg rs1) imm v ∧ RegisterResult s t rd v) ∧
    (∃ t v, exec (.ori rd rs1 imm) s = .next t ∧ Bitwise (· || ·) (s.readReg rs1) imm v ∧ RegisterResult s t rd v) ∧
    (∃ t v, exec (.xori rd rs1 imm) s = .next t ∧ Bitwise (· ^^ ·) (s.readReg rs1) imm v ∧ RegisterResult s t rd v)

/-- `slti`, `sltiu` (42_alu_immediate.md R205, R206). -/
def Obligations.SetLessImmediateResults : Prop :=
  ∀ rd rs1 imm (s : State),
    (∃ t, exec (.slti rd rs1 imm) s = .next t ∧ RegisterResult s t rd (sltFormula (s.readReg rs1) imm)) ∧
    (∃ t, exec (.sltiu rd rs1 imm) s = .next t ∧ RegisterResult s t rd (sltuFormula (s.readReg rs1) imm))

/-- `slli`, `srli`, `srai` (42_alu_immediate.md R207 to R209), for any 32-bit immediate. -/
def Obligations.ShiftImmediateResults : Prop :=
  ∀ rd rs1 imm (s : State),
    (∃ t, exec (.slli rd rs1 imm) s = .next t ∧ RegisterResult s t rd (sllFormula (s.readReg rs1) imm)) ∧
    (∃ t, exec (.srli rd rs1 imm) s = .next t ∧ RegisterResult s t rd (srlFormula (s.readReg rs1) imm)) ∧
    (∃ t, exec (.srai rd rs1 imm) s = .next t ∧ RegisterResult s t rd (sraFormula (s.readReg rs1) imm))

/-! ## Loads and stores. The exact address sum is the spec's decision D9, the misaligned fault D10, the store fault D11 -/

/-- lw, lb, lh, lbu, lhu and li at an aligned address in range load the whole cell (43_load_store.md R222, R224).
The exact sum is the spec's decision D9. -/
def Obligations.LoadsReadTheWholeCell : Prop :=
  ∀ m ∈ loadMnemonics, ∀ rd rs1 imm (s : State),
    0 ≤ s32 (s.readReg rs1) + s32 imm → s32 (s.readReg rs1) + s32 imm < s.dataBytes →
    (s32 (s.readReg rs1) + s32 imm) % 4 = 0 →
    ∃ t, exec (m rd rs1 imm) s = .next t ∧
      RegisterResult s t rd (s.mem.read (s32 (s.readReg rs1) + s32 imm).toNat)

/-- A load from outside 0 .. N-1 loads 0, whatever its alignment (43_load_store.md R223; the exact sum is the
spec's decision D9, range before alignment D25). -/
def Obligations.LoadsOutOfRangeGiveZero : Prop :=
  ∀ m ∈ loadMnemonics, ∀ rd rs1 imm (s : State),
    (s32 (s.readReg rs1) + s32 imm < 0 ∨ s.dataBytes ≤ s32 (s.readReg rs1) + s32 imm) →
    ∃ t, exec (m rd rs1 imm) s = .next t ∧ RegisterResult s t rd 0

/-- A load at a misaligned address in range is the fault MisalignedData (20_memory.md R59, the spec's decision D10; the
exact sum is its decision D9, log 16). -/
def Obligations.LoadsMisalignedFault : Prop :=
  ∀ m ∈ loadMnemonics, ∀ rd rs1 imm (s : State),
    0 ≤ s32 (s.readReg rs1) + s32 imm → s32 (s.readReg rs1) + s32 imm < s.dataBytes →
    (s32 (s.readReg rs1) + s32 imm) % 4 ≠ 0 →
    exec (m rd rs1 imm) s = .fault (.misalignedData (s32 (s.readReg rs1) + s32 imm))

/-- sw, sb and sh at an aligned address in range replace the whole word there and nothing else (43_load_store.md R225,
R227, 20_memory.md R53). The premise on the memory's form, which is the model's own (log 2), holds in every reachable state
(ReachableStatesMeetInv). The exact sum is the spec's decision D9. -/
def Obligations.StoresReplaceTheWholeCell : Prop :=
  ∀ m ∈ storeMnemonics, ∀ rs1 rs2 imm (s : State), s.mem.wf →
    0 ≤ s32 (s.readReg rs1) + s32 imm → s32 (s.readReg rs1) + s32 imm < s.dataBytes →
    (s32 (s.readReg rs1) + s32 imm) % 4 = 0 →
    ∃ t, exec (m rs1 rs2 imm) s = .next t ∧
      t.mem.read (s32 (s.readReg rs1) + s32 imm).toNat = s.readReg rs2 ∧
      SameMemBut (s32 (s.readReg rs1) + s32 imm).toNat s t ∧ SameRegs s t ∧ PassesOn s t ∧ SameProgram s t ∧
      t.status = s.status

/-- A store outside 0 .. N-1 is StoreOutOfRange, tested first; one in range and misaligned is MisalignedData (20_memory.md
R53; the spec's decisions D10, D11, D25). What is in range is a matter of the exact address sum, the spec's decision D9
(log 16, unsafe). -/
def Obligations.StoresStopOutsideTheirCells : Prop :=
  ∀ m ∈ storeMnemonics, ∀ rs1 rs2 imm (s : State),
    ((s32 (s.readReg rs1) + s32 imm < 0 ∨ s.dataBytes ≤ s32 (s.readReg rs1) + s32 imm) →
      exec (m rs1 rs2 imm) s = .fault (.storeOutOfRange (s32 (s.readReg rs1) + s32 imm))) ∧
    (0 ≤ s32 (s.readReg rs1) + s32 imm → s32 (s.readReg rs1) + s32 imm < s.dataBytes →
      (s32 (s.readReg rs1) + s32 imm) % 4 ≠ 0 →
      exec (m rs1 rs2 imm) s = .fault (.misalignedData (s32 (s.readReg rs1) + s32 imm)))

/-- The store/load round trip (43_load_store.md R228): a load right after a store with the same memory operand. -/
def Obligations.StoreThenLoadRoundTrips : Prop :=
  ∀ rd rs1 rs2 imm (s t : State), s.mem.wf → exec (.sw rs1 rs2 imm) s = .next t →
    ∃ u, exec (.lw rd rs1 imm) t = .next u ∧ u.readReg rd = (if rd = 0 then 0 else s.readReg rs2)

/-- Along every run, each cell holds the word of the latest store to it, or what it held at the start, and that is what a
load at an aligned address in range returns (20_memory.md R61, 43_load_store.md R228; the exact address sum is the spec's
decision D9). -/
def Obligations.CellsHoldTheLatestStore : Prop :=
  ∀ s log t, s.mem.wf → StoreRun s log t →
    (∀ a, t.mem.read a = latestStore log a (s.mem.read a)) ∧
    ∀ rd rs1 imm, rd ≠ 0 → 0 ≤ s32 (t.readReg rs1) + s32 imm → s32 (t.readReg rs1) + s32 imm < t.dataBytes →
      (s32 (t.readReg rs1) + s32 imm) % 4 = 0 →
      ∃ u, exec (.lw rd rs1 imm) t = .next u ∧
        u.readReg rd = latestStore log (s32 (t.readReg rs1) + s32 imm).toNat
          (s.mem.read (s32 (t.readReg rs1) + s32 imm).toNat)

/-! ## Branches: each completes, with this result and this frame -/

/-- `beq`, `bne` (44_branch.md R248, R249 with R245). -/
def Obligations.EqualityBranchResults : Prop :=
  ∀ rs1 rs2 imm (s : State),
    (∃ t, exec (.beq rs1 rs2 imm) s = .next t ∧ BranchResult s t imm (s.readReg rs1 = s.readReg rs2)) ∧
    (∃ t, exec (.bne rs1 rs2 imm) s = .next t ∧ BranchResult s t imm (s.readReg rs1 ≠ s.readReg rs2))

/-- `blt`, `bge` (44_branch.md R250, R251 with R245). -/
def Obligations.SignedBranchResults : Prop :=
  ∀ rs1 rs2 imm (s : State),
    (∃ t, exec (.blt rs1 rs2 imm) s = .next t ∧ BranchResult s t imm (s32 (s.readReg rs1) < s32 (s.readReg rs2))) ∧
    (∃ t, exec (.bge rs1 rs2 imm) s = .next t ∧ BranchResult s t imm (s32 (s.readReg rs1) ≥ s32 (s.readReg rs2)))

/-- `bltu`, `bgeu` (44_branch.md R252, R253 with R245). -/
def Obligations.UnsignedBranchResults : Prop :=
  ∀ rs1 rs2 imm (s : State),
    (∃ t, exec (.bltu rs1 rs2 imm) s = .next t ∧ BranchResult s t imm (u32 (s.readReg rs1) < u32 (s.readReg rs2))) ∧
    (∃ t, exec (.bgeu rs1 rs2 imm) s = .next t ∧ BranchResult s t imm (u32 (s.readReg rs1) ≥ u32 (s.readReg rs2)))

/-- Every write of the pc stores its value modulo 2^32, at the top of the address space too (10_state.md R27: the width is
the spec's decision D3, no word of its source). -/
def Obligations.PcArithmeticWraps : Prop :=
  ∀ i (s t : State), exec i s = .next t →
    let taken := evaluate i.op (s.readReg i.rs1OrZero) (s.readReg i.rs2OrZero) = true
    ((i.op.recordType ≠ .b ∨ ¬taken) → u32 t.pc = (u32 s.pc + 4) % 4294967296) ∧
    (i.op.recordType = .b → taken → i.immOrZero ≠ 0 → (u32 t.pc : Int) = (u32 s.pc + s32 i.immOrZero) % 4294967296) ∧
    (i.op.recordType = .b → taken → i.immOrZero = 0 → u32 t.pc = (4 * s.instructionCount) % 4294967296)

/-- A taken branch to a negative address leaves the program, and the next step halts there (44_branch.md R247; the
reduction modulo 2^32 is the spec's decision D3, the bound on the program D2). -/
def Obligations.NegativeTargetsEndTheRun : Prop :=
  ∀ (s t : State) i, s.instructionCount ≤ Config.maxInstructions → Fetches s i → i.op.recordType = .b →
    evaluate i.op (s.readReg i.rs1OrZero) (s.readReg i.rs2OrZero) = true → u32 s.pc + s32 i.immOrZero < 0 →
    step s = .next t → 4 * t.instructionCount ≤ u32 t.pc ∧ step t = .next { t with status := .halted }

/-! ## The engine's step -/

/-- A step at an aligned pc inside the program runs the instruction its record decodes to (45_engine.md R263, R265). -/
def Obligations.StepRunsTheDecodedInstruction : Prop :=
  ∀ (s : State) r i, u32 s.pc % 4 = 0 → s.imem[u32 s.pc / 4]? = some r → decode r.word = .ok i → step s = exec i s

/-- The halt test (45_engine.md R262). -/
def Obligations.PcOutsideTheProgramHalts : Prop :=
  ∀ s : State, 4 * s.instructionCount ≤ u32 s.pc →
    ∃ t, step s = .next t ∧ stepCall s = (.halted, t) ∧ t.status = .halted ∧ t.regs = s.regs ∧ t.mem = s.mem ∧
      t.pc = s.pc ∧ SameProgram s t

/-- A step of a Halted engine changes nothing and reports Halted (45_engine.md R272). -/
def Obligations.HaltedStaysHalted : Prop :=
  ∀ s : State, s.Inv → s.status = .halted → step s = .next s ∧ stepCall s = (.halted, s)

/-- A fetch at a pc inside the valid range and not a multiple of 4 is an ExecutionError and changes nothing (45_engine.md
R264: the spec's decision D7). -/
def Obligations.MisalignedFetchIsAnExecutionError : Prop :=
  ∀ s : State, u32 s.pc < 4 * s.instructionCount → u32 s.pc % 4 ≠ 0 →
    step s = .fault (.executionError (.misalignedFetch s.pc)) ∧ stepCall s = (.error (.misalignedFetch s.pc), s)

/-- A record whose word is not well formed is an ExecutionError that names its type, and changes nothing (45_engine.md
R266, 30_encoding.md R94: the spec's decisions D8 and D15). -/
def Obligations.IllFormedRecordIsAnExecutionError : Prop :=
  ∀ (s : State) r, u32 s.pc % 4 = 0 → s.imem[u32 s.pc / 4]? = some r →
    (zeroField r.word ≠ 0 ∨ ¬∃ o : Op, typeField r.word = o.recordType.number ∧ opField r.word = o.number) →
    ∃ e, step s = .fault (.executionError (.unrecognisedRecord (typeField r.word) e)) ∧
      stepCall s = (.error (.unrecognisedRecord (typeField r.word) e), s)

/-- The outcome Executed names the index of the instruction that was executed (45_engine.md R267), and nothing else gives
that outcome. -/
def Obligations.ExecutedNamesItsInstruction : Prop :=
  ∀ s k t, stepCall s = (.executed k, t) ↔
    u32 s.pc < 4 * s.instructionCount ∧ k = u32 s.pc / 4 ∧ ∃ i, Fetches s i ∧ exec i s = .next t

/-- Every event is precise (60_exceptions.md R311): an outcome other than Executed leaves registers, memory, pc and program
as they were, and Error and Fault leave the status too. That a step which ends in Error or Fault changes nothing, the pc
included, is the spec's own decision (D7, D8, D10, D11; log 5). -/
def Obligations.OtherOutcomesChangeNothing : Prop :=
  ∀ s, (∀ k, (stepCall s).1 ≠ .executed k) →
    (stepCall s).2.regs = s.regs ∧ (stepCall s).2.mem = s.mem ∧ (stepCall s).2.pc = s.pc ∧
    SameProgram s (stepCall s).2 ∧ ((stepCall s).1 ≠ .halted → (stepCall s).2 = s)

/-- The two faults come from loads and stores alone, each under its own test (60_exceptions.md R308; D10, D11). -/
def Obligations.FaultsComeFromAccessesAlone : Prop :=
  ∀ s addr,
    (step s = .fault (.misalignedData addr) ↔
      ∃ i, Fetches s i ∧ (i.op = .lw ∨ i.op = .sw) ∧ addr = s32 (s.readReg i.rs1OrZero) + s32 i.immOrZero ∧
        0 ≤ addr ∧ addr < s.dataBytes ∧ addr % 4 ≠ 0) ∧
    (step s = .fault (.storeOutOfRange addr) ↔
      ∃ i, Fetches s i ∧ i.op = .sw ∧ addr = s32 (s.readReg i.rs1OrZero) + s32 i.immOrZero ∧
        (addr < 0 ∨ s.dataBytes ≤ addr))

/-- No instruction and no step is without a meaning (30_encoding.md R88: all 34 mnemonics). -/
def Obligations.NothingIsRefused : Prop := (∀ i s r, exec i s ≠ .refused r) ∧ ∀ s r, step s ≠ .refused r

/-- The rows for `step()` of the status table (45_engine.md R270; the stored status is the spec's decision D4). -/
def Obligations.StepFollowsTheStatusTable : Prop :=
  ∀ s : State, s.Inv →
    (s.status = .idle → (stepCall s).1 = .halted ∧ (stepCall s).2.status = .halted) ∧
    (s.status = .halted → (stepCall s).1 = .halted ∧ (stepCall s).2.status = .halted) ∧
    (s.status = .ready → 4 * s.instructionCount ≤ u32 s.pc →
      (stepCall s).1 = .halted ∧ (stepCall s).2.status = .halted) ∧
    (s.status = .ready → u32 s.pc < 4 * s.instructionCount →
      (∃ i, Fetches s i ∧ TakenSelfBranch s i ∧ (stepCall s).1 = .executed (u32 s.pc / 4) ∧
        (stepCall s).2.status = .halted) ∨
      ((∀ i, Fetches s i → ¬TakenSelfBranch s i) ∧ (stepCall s).1 = .executed (u32 s.pc / 4) ∧
        (stepCall s).2.status = .ready) ∨
      ((∀ i, Fetches s i → ¬TakenSelfBranch s i) ∧ (stepCall s).1.stopsRun = true ∧ (stepCall s).2.status = .ready))

/-- The end of a run is reached in exactly two ways, and there the pc is outside the program (45_engine.md R284). -/
def Obligations.RunsEndInExactlyTwoWays : Prop :=
  ∀ s t : State, s.instructionCount ≤ Config.maxInstructions → s.status ≠ .halted → step s = .next t →
    (t.ended ↔ 4 * s.instructionCount ≤ u32 s.pc ∨
      (u32 s.pc < 4 * s.instructionCount ∧ ∃ i, Fetches s i ∧ TakenSelfBranch s i)) ∧
    (t.ended → 4 * t.instructionCount ≤ u32 t.pc) ∧
    (t.ended → u32 s.pc < 4 * s.instructionCount → u32 t.pc = 4 * t.instructionCount)

/-- No step, no reset and no failed load changes an instruction, the Label Table or N; a successful load puts the assembled
ones there (10_state.md R34, 20_memory.md R64). -/
def Obligations.ProgramChangesOnlyByLoad : Prop :=
  (∀ s t, step s = .next t → SameProgram s t) ∧ (∀ s : State, SameProgram s s.hostReset) ∧
  (∀ source (s t : State) e, load source s = (.error e, t) → SameProgram s t) ∧
  (∀ source (s : State) imem labels, assemble source = .ok (imem, labels) →
    (load source s).2.imem = imem ∧ (load source s).2.labels = labels)

/-- Which kind of instruction may change what (10_state.md R25, R28, R36, 44_branch.md R254): stores and branches write
no register, only stores change a cell, only branches redirect the pc or halt. -/
def Obligations.EachTypeChangesOnlyItsOwn : Prop :=
  ∀ i (s t : State), exec i s = .next t →
    SameRegsBut i.rdOrZero s t ∧ ((i.op.recordType = .s ∨ i.op.recordType = .b) → t.regs = s.regs) ∧
    (i.op.recordType ≠ .s → t.mem = s.mem) ∧ (i.op.recordType ≠ .b → PassesOn s t ∧ t.status = s.status) ∧
    SameProgram s t

/-- An alias executes exactly as its record form (43_load_store.md R224, R227). -/
def Obligations.AliasesActAsTheirRecords : Prop := ∀ i s, exec i s = exec i.recordForm s

/-- What a record's text and address and the Label Table say never matters to a step (30_encoding.md R82, R83, 10_state.md
R35). -/
def Obligations.TextAndLabelsNeverMatter : Prop :=
  ∀ (s : State) imem labels, imem.map (·.word) = s.imem.map (·.word) →
    step { s with imem := imem, labels := labels } = withProgram imem labels (step s)

/-! ## Invariants and safety -/

/-- Every step keeps the invariant, from every state that meets it. -/
def Obligations.StepKeepsInv : Prop := ∀ s t : State, s.Inv → step s = .next t → t.Inv

/-- A reset keeps the invariant, and a successful load establishes it from any state with an allowed N. -/
def Obligations.ResetAndLoadGiveInv : Prop :=
  (∀ s : State, s.Inv → s.hostReset.Inv) ∧
  (∀ source (s t : State) n, SizeOk s.dataBytes → load source s = (.ok n, t) → t.Inv)

/-- Every state an engine can reach, by any host operations in any order, meets the invariant. -/
def Obligations.ReachableStatesMeetInv : Prop := ∀ s, Reachable s → s.Inv

/-- A program whose branch offsets are multiples of 4 never raises an ExecutionError (60_exceptions.md R305). -/
def Obligations.AlignedProgramsNeverErr : Prop :=
  ∀ s : State, s.Inv → s.branchesAligned → u32 s.pc % 4 = 0 →
    (∀ e, step s ≠ .fault (.executionError e)) ∧
    (∀ t, step s = .next t → t.branchesAligned ∧ u32 t.pc % 4 = 0)

/-! ## The host's operations and the assembler -/

/-- A failed load changes nothing (45_engine.md R278, 40_assembler.md R157). -/
def Obligations.FailedLoadChangesNothing : Prop :=
  ∀ source (s t : State) e, load source s = (.error e, t) ↔ (assemble source = .error e ∧ t = s)

/-- A successful load installs the program and its labels, returns its count, and resets (45_engine.md R276, R277; the
status of an empty program is the spec's decision D5). -/
def Obligations.SuccessfulLoadInstallsAndResets : Prop :=
  ∀ source (s : State) imem labels, assemble source = .ok (imem, labels) →
    ∃ t, load source s = (.ok imem.length, t) ∧ t.imem = imem ∧ t.labels = labels ∧ t.dataBytes = s.dataBytes ∧
      (∀ r, t.readReg r = 0) ∧ (∀ a, t.mem.read a = 0) ∧ u32 t.pc = 0 ∧
      (imem ≠ [] → t.status = .ready) ∧ (imem = [] → t.status = .idle)

/-- What the assembler makes (40_assembler.md R124 to R126, R133, R156, 30_encoding.md R82, R89): one record per instruction
line, each at four times its index with its line as text, each one of the 27 record forms; and the Label Table: exactly the
label lines of the source, each with four times the number of instruction lines before it, no name twice and none empty, and
a lookup finds what the table holds. The bound is the spec's decision D2, the label names D16, the packed word D15, the text
D27. -/
def Obligations.AssemblerMakesOneRecordPerLine : Prop :=
  ∀ source imem labels, assemble source = .ok (imem, labels) →
    imem.map (·.text) = instructionLines source ∧ imem.length ≤ Config.maxInstructions ∧
    (∀ (k : Nat) r, imem[k]? = some r → r.address = 4 * k ∧ ∃ i, i.wellFormed = true ∧ decode r.word = .ok i) ∧
    (∀ name a, (name, a) ∈ labels ↔ LabelAt source name a) ∧
    (∀ name a, labels.find name = some a ↔ (name, a) ∈ labels) ∧
    (labels.map (·.1)).Nodup ∧ (∀ l ∈ labels, l.1 ≠ [] ∧ l.2 % 4 = 0 ∧ l.2 ≤ 4 * imem.length)

/-- Each record is the one its line decodes to with the whole Label Table, so forward references resolve (40_assembler.md
R127, R128); and a line decodes exactly as the syntax of its class says: its first token in lower case is the mnemonic, and
its other tokens are the operands in the order of R145 to R150 (30_encoding.md R88 for the table). Operand counts, register
tokens and memory operands are the spec's decisions D17 to D20, the ABI numbers D26 (log 15), lower-casing log 12. -/
def Obligations.RecordsDecodeTheirLines : Prop :=
  (∀ source imem labels, assemble source = .ok (imem, labels) →
    ∀ (k : Nat) r, imem[k]? = some r →
      ∃ i, decodeLine labels (4 * k) (clean r.text) = .ok i ∧ decode r.word = .ok i.recordForm) ∧
  (∀ labels here c i, decodeLine labels here c = .ok i ↔
    ∃ m ops, tokens c = m :: ops ∧ LineSyntax labels here (m.map Char.toLower) ops i)

/-- Immediates (40_assembler.md R140 to R143): a label gives its distance from the instruction, a literal its value, each
only within the signed 32-bit range; and the literals are those of the grammar of R142, with its values. The grammar and the
range are the spec's decision D18. -/
def Obligations.ImmediatesResolveExactly : Prop :=
  (∀ labels here tok (w : Word), immediateOperand labels here tok = .ok w ↔
    (∃ a, labels.find tok = some a ∧ (a : Int) - here = s32 w) ∨
    (labels.find tok = none ∧ literalValue tok = some (s32 w))) ∧
  (∀ tok v, literalValue tok = some v ↔ Literal tok v)

/-- `run()` is the loop of 45_engine.md R273: what the bounded form computes for some bound is what the loop returns. -/
def Obligations.BoundedRunIsTheLoop : Prop :=
  ∀ cancel k s r t, Returns cancel k s r t ↔ ∃ fuel, runFor cancel fuel k s = some (r, t)

/-- `run()` adds no semantics of its own: the state it leaves is that of a sequence of `step()` calls (45_engine.md R273,
D28 for its results). -/
def Obligations.RunIsASequenceOfSteps : Prop :=
  ∀ cancel k s r t, Returns cancel k s r t →
    (∃ n, t = (fun u => (stepCall u).2)^[n] s) ∧ (r = .halted → t.status = .halted) ∧
    (r = .cancelled → t.status ≠ .halted ∧ ∃ n, cancel (k + n) = true) ∧
    (∀ o, r = .stopped o → o.stopsRun = true)

/-- A source is assembled if its label names are not empty and none is registered twice, it has at most 2^29 instruction
lines, and each of them decodes at its address with the labels of the source (40_assembler.md R120, R125, R132, R156, R159;
the first two conditions are the spec's decisions D16 and D2). -/
def Obligations.AssemblerAcceptsSoundSources : Prop :=
  ∀ source,
    (∀ (k : Nat) line name, (splitLines source)[k]? = some line → LabelLine line name → name ≠ [] ∧
      ∀ (j : Nat) other, (splitLines source)[j]? = some other → LabelLine other name → j = k) →
    (instructionLines source).length ≤ Config.maxInstructions →
    (∀ labels, (∀ name a, labels.find name = some a ↔ LabelAt source name a) →
      ∀ (k : Nat) line, (instructionLines source)[k]? = some line → ∃ i, decodeLine labels (4 * k) (clean line) = .ok i) →
    ∃ imem labels, assemble source = .ok (imem, labels)
end

