-- ==== Sys2Proof/Laws/Assembler.lean ====
section
/-! SUPPORT. What the two passes of the assembler do (40_assembler.md), one lemma per pass. -/

namespace Sys2Proof.Machine

/-- Which lines are instruction lines (40_assembler.md R123). -/
theorem classifyLine_instruction_iff (l : Text) : (∃ c, classifyLine l = .instruction c) ↔ (clean l ≠ [] ∧ (clean l).getLast? ≠ some ':') := by
  unfold classifyLine classifyCleaned
  cases hc : (clean l).getLast? with
  | none => simp [List.getLast?_eq_none_iff.mp hc]
  | some ch =>
    have : clean l ≠ [] := fun h => by rw [h] at hc; cases hc
    by_cases h : ch = ':'
    · subst h; simp
    · simp [this, h]

/-- An instruction line is classified with its cleaned text. -/
theorem classifyLine_instruction_clean {l c} (h : classifyLine l = .instruction c) : c = clean l := by
  unfold classifyLine classifyCleaned at h
  split at h
  · cases h
  · cases h
  · injection h with h; exact h.symm

/-- The test of R123 for an instruction line. -/
abbrev isInstructionLine (l : Text) : Bool := decide (clean l ≠ [] ∧ (clean l).getLast? ≠ some ':')

theorem isInstructionLine_of {l c} (h : classifyLine l = .instruction c) : isInstructionLine l = true := by
  simpa [isInstructionLine] using (classifyLine_instruction_iff l).mp ⟨c, h⟩

theorem not_isInstructionLine {l} (h : ∀ c, classifyLine l ≠ .instruction c) : isInstructionLine l = false := by
  rw [← Bool.not_eq_true]; intro h'
  obtain ⟨c, hc⟩ := (classifyLine_instruction_iff l).mpr (by simpa [isInstructionLine] using h')
  exact h c hc

/-- Pass 1 counts four bytes per instruction line, and every label it registers is a multiple of 4 within the program so
far (R124, R126). -/
theorem passOne_spec {lines a labels ls b} (h : passOne lines a labels = .ok (ls, b)) (hl : ∀ l ∈ labels, l.2 % 4 = 0 ∧ l.2 ≤ a) (ha : a % 4 = 0) :
    b = a + 4 * (lines.filter (fun p => isInstructionLine p.1)).length ∧ ∀ l ∈ ls, l.2 % 4 = 0 ∧ l.2 ≤ b := by
  induction lines generalizing a labels with
  | nil => simp only [passOne, Except.ok.injEq, Prod.mk.injEq] at h; obtain ⟨rfl, rfl⟩ := h; exact ⟨rfl, hl⟩
  | cons p lines ih =>
    obtain ⟨l, n⟩ := p
    simp only [passOne] at h
    split at h
    · rename_i hc
      have := ih h hl ha
      rwa [List.filter_cons_of_neg (by simp only; rw [not_isInstructionLine (by rw [hc]; simp)]; simp)]
    · rename_i c hc
      obtain ⟨h1, h2⟩ := ih h (fun l hm => ⟨(hl l hm).1, by have := (hl l hm).2; omega⟩) (by omega)
      rw [List.filter_cons_of_pos (by simp only; exact isInstructionLine_of hc)]
      exact ⟨by rw [List.length_cons]; omega, h2⟩
    · rename_i name hc
      split at h
      · cases h
      split at h
      · cases h
      have := ih h (by
        intro l hm
        rcases List.mem_append.mp hm with hm | hm
        · exact hl l hm
        · simp only [List.mem_singleton] at hm; subst hm; exact ⟨ha, le_refl _⟩) ha
      rwa [List.filter_cons_of_neg (by simp only; rw [not_isInstructionLine (by rw [hc]; simp)]; simp)]

/-- Pass 2 makes one record per instruction line, each decoded at its own address with the whole Label Table (R128, R133). -/
theorem passTwo_spec {labels lines a rs} (h : passTwo labels lines a = .ok rs) :
    rs.map (·.text) = (lines.map (·.1)).filter isInstructionLine ∧ ∀ (k : Nat) r, rs[k]? = some r → r.address = a + 4 * k ∧ ∃ i, decodeLine labels (a + 4 * k) (clean r.text) = .ok i ∧ r.word = encode i.recordForm := by
  induction lines generalizing a rs with
  | nil => simp only [passTwo, Except.ok.injEq] at h; subst h; simp
  | cons p lines ih =>
    obtain ⟨l, n⟩ := p
    simp only [passTwo] at h
    split at h
    · rename_i hc
      have := ih h
      rwa [List.map_cons, List.filter_cons_of_neg (by rw [not_isInstructionLine (by rw [hc]; simp)]; simp)]
    · rename_i hc
      have := ih h
      rwa [List.map_cons, List.filter_cons_of_neg (by rw [not_isInstructionLine (by rw [hc]; simp)]; simp)]
    · rename_i c hc
      split at h
      · cases h
      rename_i i hi
      split at h
      · cases h
      rename_i rs' hrs'
      injection h with h; subst h
      obtain ⟨h1, h2⟩ := ih hrs'
      rw [List.map_cons, List.map_cons, List.filter_cons_of_pos (isInstructionLine_of hc), h1]
      refine ⟨rfl, fun k r hr => ?_⟩
      cases k with
      | zero =>
        simp only [List.getElem?_cons_zero, Option.some.injEq] at hr; subst hr
        exact ⟨rfl, i, by show decodeLine labels _ (clean l) = _; rw [← classifyLine_instruction_clean hc]; exact hi, rfl⟩
      | succ k =>
        have := h2 k r (by simpa using hr)
        rw [show a + 4 * (k + 1) = a + 4 + 4 * k by ring]
        exact this

/-- Which lines are label lines, and of what name (R123, R125). -/
theorem classifyLine_label_iff (l name : Text) :
    classifyLine l = .label name ↔ ∃ c, clean l = c ++ [':'] ∧ name = trim c := by
  unfold classifyLine classifyCleaned
  constructor
  · split
    · intro h; cases h
    · rename_i hc
      intro h; injection h with h
      exact ⟨(clean l).dropLast, (List.dropLast_append_getLast? ':' hc).symm, h.symm⟩
    · intro h; cases h
  · rintro ⟨c, hc, rfl⟩
    simp [hc]

/-- What a lookup finds stands in the table. -/
theorem Labels.mem_of_find {ls : Labels} {t : Text} {a : Nat} (h : ls.find t = some a) : (t, a) ∈ ls := by
  induction ls with
  | nil => cases h
  | cons p ls ih =>
    unfold Labels.find at h
    split at h
    · rename_i hn; injection h with h; subst hn; subst h; exact .head _
    · exact .tail _ (ih h)

/-- A lookup fails exactly where no label has the name. -/
theorem Labels.find_eq_none_iff {ls : Labels} {t : Text} : ls.find t = none ↔ t ∉ ls.map (·.1) := by
  induction ls with
  | nil => simp [Labels.find]
  | cons p ls ih =>
    unfold Labels.find
    split
    · rename_i hn; subst hn; simp
    · rename_i hn; rw [ih]; simp [Ne.symm hn]

/-- In a table that names nothing twice, a lookup finds exactly what it holds. -/
theorem Labels.find_eq_some_iff {ls : Labels} (hn : (ls.map (·.1)).Nodup) {t : Text} {a : Nat} :
    ls.find t = some a ↔ (t, a) ∈ ls := by
  refine ⟨Labels.mem_of_find, fun h => ?_⟩
  induction ls with
  | nil => cases h
  | cons p ls ih =>
    rw [List.map_cons, List.nodup_cons] at hn
    unfold Labels.find
    cases h with
    | head => exact if_pos rfl
    | tail _ h =>
      rw [if_neg (fun e : p.1 = t => hn.1 (by rw [e]; exact List.mem_map_of_mem (f := (·.1)) h))]
      exact ih hn.2 h

/-- Pass 1 adds exactly the label lines, each with the address it has reached there (R124). -/
theorem passOne_labels {lines a labels ls b} (h : passOne lines a labels = .ok (ls, b)) (name : Text) (v : Nat) :
    (name, v) ∈ ls ↔ (name, v) ∈ labels ∨ ∃ (k : Nat) (p : NumberedLine), lines[k]? = some p ∧
      classifyLine p.1 = .label name ∧ v = a + 4 * ((lines.take k).filter (fun p => isInstructionLine p.1)).length := by
  induction lines generalizing a labels with
  | nil => simp only [passOne, Except.ok.injEq, Prod.mk.injEq] at h; obtain ⟨rfl, rfl⟩ := h; simp
  | cons p lines ih =>
    have split_first : ∀ P : Nat → NumberedLine → Prop, (∃ (k : Nat) (q : NumberedLine), (p :: lines)[k]? = some q ∧ P k q) ↔
        P 0 p ∨ ∃ (k : Nat) (q : NumberedLine), lines[k]? = some q ∧ P (k + 1) q := by
      intro P
      constructor
      · rintro ⟨k, q, hq, hP⟩
        cases k with
        | zero => simp only [List.getElem?_cons_zero, Option.some.injEq] at hq; subst hq; exact .inl hP
        | succ k => exact .inr ⟨k, q, by simpa using hq, hP⟩
      · rintro (hP | ⟨k, q, hq, hP⟩)
        · exact ⟨0, p, rfl, hP⟩
        · exact ⟨k + 1, q, by simpa using hq, hP⟩
    rw [split_first (fun k q => classifyLine q.1 = .label name ∧
      v = a + 4 * (((p :: lines).take k).filter (fun p => isInstructionLine p.1)).length)]
    obtain ⟨l, n⟩ := p
    simp only [passOne] at h
    split at h
    · rename_i hc
      have hi : isInstructionLine l = false := not_isInstructionLine (by rw [hc]; simp)
      rw [ih h]
      simp only [hc, List.take_succ_cons, List.filter_cons, hi, reduceCtorEq, false_and, false_or, Bool.false_eq_true, if_false]
    · rename_i c hc
      rw [ih h]
      simp only [List.take_succ_cons, List.filter_cons, isInstructionLine_of hc, if_true, List.length_cons, hc]
      simp [Nat.mul_add, Nat.add_assoc, Nat.add_comm 4]
    · rename_i name' hc
      split at h
      · cases h
      split at h
      · cases h
      have hi : isInstructionLine l = false := not_isInstructionLine (by rw [hc]; simp)
      rw [ih h, List.mem_append, List.mem_singleton, Prod.mk.injEq, or_assoc]
      simp only [List.take_zero, List.filter_nil, List.length_nil, Nat.mul_zero, Nat.add_zero, hc, LineKind.label.injEq,
        List.take_succ_cons, List.filter_cons, hi, eq_comm (a := name')]
      rfl

/-- Pass 1 registers no name twice and no empty one (R125). -/
theorem passOne_names {lines a labels ls b} (h : passOne lines a labels = .ok (ls, b)) (hn : (labels.map (·.1)).Nodup)
    (he : ∀ l ∈ labels, l.1 ≠ []) : (ls.map (·.1)).Nodup ∧ ∀ l ∈ ls, l.1 ≠ [] := by
  induction lines generalizing a labels with
  | nil => simp only [passOne, Except.ok.injEq, Prod.mk.injEq] at h; obtain ⟨rfl, rfl⟩ := h; exact ⟨hn, he⟩
  | cons p lines ih =>
    obtain ⟨l, n⟩ := p
    simp only [passOne] at h
    split at h
    · exact ih h hn he
    · exact ih h hn he
    · rename_i name hc
      split at h
      · cases h
      rename_i hne
      split at h
      · cases h
      rename_i hf
      rw [Option.not_isSome_iff_eq_none, Labels.find_eq_none_iff] at hf
      refine ih h ?_ ?_
      · rw [List.map_append]
        exact List.nodup_append.mpr ⟨hn, by simp, fun x hx y hy e => hf (by
          simp only [List.map_cons, List.map_nil, List.mem_singleton] at hy; exact hy ▸ e ▸ hx)⟩
      · intro q hq
        rcases List.mem_append.mp hq with hq | hq
        · exact he q hq
        · rw [List.mem_singleton] at hq; subst hq; exact hne

/-- Pass 1 succeeds where every label name is not empty and new (R125). -/
theorem passOne_ok {lines a labels} (h : ∀ (k : Nat) (p : NumberedLine) name, lines[k]? = some p →
    classifyLine p.1 = .label name → name ≠ [] ∧ Labels.find labels name = none ∧
      ∀ (j : Nat) (q : NumberedLine), lines[j]? = some q → classifyLine q.1 = .label name → j = k) :
    ∃ ls b, passOne lines a labels = .ok (ls, b) := by
  induction lines generalizing a labels with
  | nil => exact ⟨_, _, rfl⟩
  | cons p lines ih =>
    have tail : ∀ (k : Nat) (q : NumberedLine) name, lines[k]? = some q → classifyLine q.1 = .label name → name ≠ [] ∧
        Labels.find labels name = none ∧
        ∀ (j : Nat) (r : NumberedLine), lines[j]? = some r → classifyLine r.1 = .label name → j = k := by
      intro k q name hq hc
      obtain ⟨h1, h2, h3⟩ := h (k + 1) q name (by simpa using hq) hc
      exact ⟨h1, h2, fun j r hr hc' => by have := h3 (j + 1) r (by simpa using hr) hc'; omega⟩
    obtain ⟨l, n⟩ := p
    simp only [passOne]
    split
    · exact ih tail
    · exact ih tail
    · rename_i name hc
      obtain ⟨h1, h2, h3⟩ := h 0 (l, n) name rfl hc
      rw [if_neg h1, if_neg (by rw [h2]; simp)]
      refine ih fun k q name' hq hc' => ?_
      obtain ⟨g1, g2, g3⟩ := tail k q name' hq hc'
      refine ⟨g1, ?_, g3⟩
      rw [Labels.find_eq_none_iff] at g2 ⊢
      rw [List.map_append, List.mem_append, not_or]
      refine ⟨g2, fun hm => ?_⟩
      simp only [List.map_cons, List.map_nil, List.mem_singleton] at hm
      have := h3 (k + 1) q (by simpa using hq) (hm ▸ hc')
      omega

/-- Pass 2 succeeds where every instruction line decodes at its address (R132). -/
theorem passTwo_ok {labels lines a} (h : ∀ (k : Nat) l, ((lines.map (·.1)).filter isInstructionLine)[k]? = some l →
    ∃ i, decodeLine labels (a + 4 * k) (clean l) = .ok i) : ∃ rs, passTwo labels lines a = .ok rs := by
  induction lines generalizing a with
  | nil => exact ⟨_, rfl⟩
  | cons p lines ih =>
    obtain ⟨l, n⟩ := p
    simp only [passTwo]
    split
    · rename_i hc
      refine ih ?_
      rwa [List.map_cons, List.filter_cons_of_neg (by rw [not_isInstructionLine (by rw [hc]; simp)]; simp)] at h
    · rename_i hc
      refine ih ?_
      rwa [List.map_cons, List.filter_cons_of_neg (by rw [not_isInstructionLine (by rw [hc]; simp)]; simp)] at h
    · rename_i c hc
      rw [List.map_cons, List.filter_cons_of_pos (isInstructionLine_of hc)] at h
      obtain ⟨i, hi⟩ := h 0 l rfl
      rw [Nat.mul_zero, Nat.add_zero, ← classifyLine_instruction_clean hc] at hi
      obtain ⟨rs, hrs⟩ := ih (a := a + 4) fun k m hm => by
        obtain ⟨j, hj⟩ := h (k + 1) m (by simpa using hm)
        exact ⟨j, by rw [show a + 4 + 4 * k = a + 4 * (k + 1) by ring]; exact hj⟩
      rw [hi, hrs]
      exact ⟨_, rfl⟩

/-- The immediate field takes exactly the signed 32-bit values (R143). -/
theorem immediateOf_ok (t : Text) (v : Int) (w : Word) : immediateOf t v = .ok w ↔ v = s32 w := by
  unfold immediateOf fitsImm
  have h1 : _ ≤ s32 w := BitVec.le_toInt w
  have h2 : s32 w < _ := BitVec.toInt_lt (x := w)
  simp only [Nat.reduceSub, Int.reducePow] at h1 h2
  constructor
  · split
    · rename_i h; simp at h
      intro e; injection e with e; subst e
      rw [s32, BitVec.toInt_ofInt]; exact (Int.bmod_eq_of_le (by omega) (by omega)).symm
    · intro e; cases e
  · rintro rfl
    rw [if_pos (by simp; omega), s32, BitVec.ofInt_toInt]

end Sys2Proof.Machine
end

