-- ==== Sys2Proof/Laws/Decode.lean ====
section
/-! SUPPORT. The fields of a packed word: reading a field of packed fields gives it back, and a word is the pack of its fields. -/

namespace Sys2Proof

variable (zero : BitVec 9) (ty : BitVec 3) (op : BitVec 5) (rs2 rs1 rd : Reg) (imm : Word) (w : RecordWord)

/-- Each bit of a packed word is a bit of the field it lies in (30_encoding.md R93). -/
theorem getLsbD_packFields (k : Nat) : (packFields zero ty op rs2 rs1 rd imm).getLsbD k =
    if k < 32 then imm.getLsbD k else if k < 37 then (BitVec.ofFin (w := 5) rd).getLsbD (k - 32)
    else if k < 42 then (BitVec.ofFin (w := 5) rs1).getLsbD (k - 37)
    else if k < 47 then (BitVec.ofFin (w := 5) rs2).getLsbD (k - 42)
    else if k < 52 then op.getLsbD (k - 47) else if k < 55 then ty.getLsbD (k - 52) else zero.getLsbD (k - 55) := by
  simp only [packFields, BitVec.getLsbD_cast, BitVec.getLsbD_append, Nat.sub_sub]
  split_ifs <;> first | rfl | omega

theorem zeroField_packFields : zeroField (packFields zero ty op rs2 rs1 rd imm) = zero := by
  apply BitVec.eq_of_getLsbD_eq
  intro i hi
  simp (disch := omega) only [zeroField, BitVec.getLsbD_extractLsb', getLsbD_packFields, hi, if_neg,
    Nat.add_sub_cancel_left, decide_true, Bool.true_and]

theorem typeField_packFields : typeField (packFields zero ty op rs2 rs1 rd imm) = ty := by
  apply BitVec.eq_of_getLsbD_eq
  intro i hi
  simp (disch := omega) only [typeField, BitVec.getLsbD_extractLsb', getLsbD_packFields, hi, if_neg, if_pos,
    Nat.add_sub_cancel_left, decide_true, Bool.true_and]

theorem opField_packFields : opField (packFields zero ty op rs2 rs1 rd imm) = op := by
  apply BitVec.eq_of_getLsbD_eq
  intro i hi
  simp (disch := omega) only [opField, BitVec.getLsbD_extractLsb', getLsbD_packFields, hi, if_neg, if_pos,
    Nat.add_sub_cancel_left, decide_true, Bool.true_and]

theorem rs2Field_packFields : rs2Field (packFields zero ty op rs2 rs1 rd imm) = rs2 := by
  have h : (packFields zero ty op rs2 rs1 rd imm).extractLsb' 42 5 = BitVec.ofFin (w := 5) rs2 := by
    apply BitVec.eq_of_getLsbD_eq
    intro i hi
    simp (disch := omega) only [BitVec.getLsbD_extractLsb', getLsbD_packFields, hi, if_neg, if_pos,
      Nat.add_sub_cancel_left, decide_true, Bool.true_and]
  rw [rs2Field, h]

theorem rs1Field_packFields : rs1Field (packFields zero ty op rs2 rs1 rd imm) = rs1 := by
  have h : (packFields zero ty op rs2 rs1 rd imm).extractLsb' 37 5 = BitVec.ofFin (w := 5) rs1 := by
    apply BitVec.eq_of_getLsbD_eq
    intro i hi
    simp (disch := omega) only [BitVec.getLsbD_extractLsb', getLsbD_packFields, hi, if_neg, if_pos,
      Nat.add_sub_cancel_left, decide_true, Bool.true_and]
  rw [rs1Field, h]

theorem rdField_packFields : rdField (packFields zero ty op rs2 rs1 rd imm) = rd := by
  have h : (packFields zero ty op rs2 rs1 rd imm).extractLsb' 32 5 = BitVec.ofFin (w := 5) rd := by
    apply BitVec.eq_of_getLsbD_eq
    intro i hi
    simp (disch := omega) only [BitVec.getLsbD_extractLsb', getLsbD_packFields, hi, if_neg, if_pos,
      Nat.add_sub_cancel_left, decide_true, Bool.true_and]
  rw [rdField, h]

theorem immField_packFields : immField (packFields zero ty op rs2 rs1 rd imm) = imm := by
  apply BitVec.eq_of_getLsbD_eq
  intro i hi
  simp (disch := omega) only [immField, BitVec.getLsbD_extractLsb', getLsbD_packFields, hi, if_pos, if_true, Nat.zero_add,
    decide_true, Bool.true_and]

/-- A word is the pack of its own fields: the seven fields are all of its 64 bits. -/
theorem packFields_fields : packFields (zeroField w) (typeField w) (opField w) (rs2Field w) (rs1Field w) (rdField w)
    (immField w) = w := by
  apply BitVec.eq_of_getLsbD_eq
  intro i hi
  rw [getLsbD_packFields]
  simp only [zeroField, typeField, opField, rs2Field, rs1Field, rdField, immField, BitVec.ofFin_toFin,
    BitVec.getLsbD_extractLsb']
  have fold {a b n : Nat} (h : a - b < n) (hb : b ≤ a) : (decide (a - b < n) && w.getLsbD (b + (a - b))) = w.getLsbD a := by
    rw [decide_eq_true h, Bool.true_and, Nat.add_sub_cancel' hb]
  split_ifs with h
  · rw [decide_eq_true h, Bool.true_and, Nat.zero_add]
  all_goals exact fold (by omega) (by omega)

/-- The op numbers of 30_encoding.md R94 are their places in its table. -/
theorem Op.ofNumber?_number (o : Op) : Op.ofNumber? o.number = some o := by cases o <;> rfl

theorem RecordType.ofNumber?_number (t : RecordType) : RecordType.ofNumber? t.number = some t := by cases t <;> rfl

/-- The bits 63:47 that select a form: the mask of 30_encoding.md R94. -/
def selectMask : RecordWord := 0xFFFF800000000000

theorem getLsbD_selectMask (k : Nat) : selectMask.getLsbD k = decide (47 ≤ k ∧ k < 64) := by
  by_cases h : k < 64
  · revert k
    decide
  · rw [BitVec.getLsbD_of_ge _ _ (by omega)]
    exact (decide_eq_false (by omega)).symm

/-- The mask keeps the zero, type and op fields. -/
theorem packFields_and_selectMask :
    packFields zero ty op rs2 rs1 rd imm &&& selectMask = packFields zero ty op 0 0 0 0 := by
  apply BitVec.eq_of_getLsbD_eq
  intro i hi
  rw [BitVec.getLsbD_and, getLsbD_packFields, getLsbD_packFields, getLsbD_selectMask]
  split_ifs <;> simp <;> omega

end Sys2Proof
end

