-- ==== Sys2Proof/Laws/Memory.lean ====
section
/-! SUPPORT. The Data Memory's laws: read over write, the canonical form, and that equal contents are equal lists. -/

namespace Sys2Proof.Machine

variable {m : Memory} {a b : Nat} {v w : Word}

theorem Memory.wf_nil : Memory.wf [] := by decide

/-- A canonical memory's tail is canonical, and its head stands below the tail and is not the unlisted word. -/
theorem Memory.wf_cons : Memory.wf ((b, w) :: m) ↔ Memory.wf m ∧ (∀ c ∈ m, b < c.1) ∧ w ≠ Memory.unlisted := by
  simp only [Memory.wf, List.pairwise_cons, List.mem_cons, forall_eq_or_imp]
  tauto

/-- Below every listed address, every address is unlisted. -/
theorem Memory.read_below (h : ∀ c ∈ m, a < c.1) : m.read a = Memory.unlisted := by
  induction m with
  | nil => rfl
  | cons c m ih =>
    have hc := h c (by simp)
    simp only [Memory.read]
    rw [if_neg (by omega)]
    exact ih fun d hd => h d (by simp [hd])

theorem Memory.read_place (h : ∀ c ∈ m, a < c.1) :
    (Memory.place a v m).read b = if b = a then v else m.read b := by
  unfold Memory.place
  by_cases hv : v = Memory.unlisted
  · rw [if_pos hv]
    by_cases hb : b = a
    · rw [if_pos hb, hb, hv, Memory.read_below h]
    · rw [if_neg hb]
  · rw [if_neg hv]
    simp only [Memory.read, eq_comm]

/-- Read over write: the written cell reads as the written word, and every other cell as before. -/
theorem Memory.read_write (hm : m.wf) : (m.write a v).read b = if b = a then v else m.read b := by
  induction m with
  | nil => exact Memory.read_place (by simp)
  | cons c m ih =>
    obtain ⟨k, w⟩ := c
    obtain ⟨hm', hk, -⟩ := Memory.wf_cons.mp hm
    simp only [Memory.write]
    split
    · rename_i h
      refine Memory.read_place fun d hd => ?_
      rcases List.mem_cons.mp hd with rfl | hd
      · exact h
      · exact h.trans (hk d hd)
    · split
      · rename_i h
        rw [Memory.read_place (by rw [h]; exact hk)]
        by_cases hb : b = a
        · simp [hb]
        · simp only [if_neg hb, Memory.read]
          rw [if_neg (by omega)]
      · rename_i h
        simp only [Memory.read, ih hm']
        by_cases hb : b = a
        · rw [if_neg (by omega), if_pos hb, if_pos hb]
        · rw [if_neg hb, if_neg hb]

theorem Memory.mem_place {c : Nat × Word} (h : c ∈ Memory.place a v m) : c = (a, v) ∨ c ∈ m := by
  unfold Memory.place at h
  split at h
  · exact .inr h
  · simpa using h

/-- A write lists no cell but the written one and those listed before. -/
theorem Memory.mem_write {c : Nat × Word} (h : c ∈ m.write a v) : c = (a, v) ∨ c ∈ m := by
  induction m with
  | nil => exact Memory.mem_place h
  | cons d m ih =>
    obtain ⟨k, w⟩ := d
    simp only [Memory.write] at h
    split at h
    · exact Memory.mem_place h
    · split at h
      · exact (Memory.mem_place h).imp_right (List.mem_cons_of_mem _)
      · rcases List.mem_cons.mp h with rfl | h
        · exact .inr (by simp)
        · exact (ih h).imp_right (List.mem_cons_of_mem _)

theorem Memory.place_wf (hm : m.wf) (h : ∀ c ∈ m, a < c.1) : (Memory.place a v m).wf := by
  unfold Memory.place
  split
  · exact hm
  · exact Memory.wf_cons.mpr ⟨hm, h, ‹_›⟩

/-- A write keeps the canonical form. -/
theorem Memory.write_wf (hm : m.wf) : (m.write a v).wf := by
  induction m with
  | nil => exact Memory.place_wf Memory.wf_nil (by simp)
  | cons c m ih =>
    obtain ⟨k, w⟩ := c
    obtain ⟨hm', hk, hw⟩ := Memory.wf_cons.mp hm
    simp only [Memory.write]
    split
    · rename_i h
      refine Memory.place_wf hm fun d hd => ?_
      rcases List.mem_cons.mp hd with rfl | hd
      · exact h
      · exact h.trans (hk d hd)
    · split
      · rename_i h
        exact Memory.place_wf hm' (by rw [h]; exact hk)
      · rename_i h1 h2
        refine Memory.wf_cons.mpr ⟨ih hm', fun d hd => ?_, hw⟩
        rcases Memory.mem_write hd with rfl | hd
        · exact lt_of_le_of_ne (not_lt.mp h1) (Ne.symm h2)
        · exact hk d hd

/-- The canonical form is canonical: memories that read alike are equal lists. -/
theorem Memory.ext_of_wf {m n : Memory} (hm : m.wf) (hn : n.wf) (h : ∀ a, m.read a = n.read a) : m = n := by
  induction m generalizing n with
  | nil =>
    cases n with
    | nil => rfl
    | cons c n =>
      obtain ⟨k, w⟩ := c
      have := h k
      simp only [Memory.read, if_true] at this
      exact absurd this.symm (Memory.wf_cons.mp hn).2.2
  | cons c m ih =>
    obtain ⟨k, w⟩ := c
    obtain ⟨hm', hk, hw⟩ := Memory.wf_cons.mp hm
    cases n with
    | nil =>
      have := h k
      simp only [Memory.read, if_true] at this
      exact absurd this hw
    | cons d n =>
      obtain ⟨l, u⟩ := d
      obtain ⟨hn', hl, hu⟩ := Memory.wf_cons.mp hn
      have hkl : k = l := by
        rcases lt_trichotomy k l with hlt | he | hgt
        · have := h k
          rw [Memory.read_below (m := (l, u) :: n)] at this
          · simp only [Memory.read, if_true] at this
            exact absurd this hw
          · intro c hc
            rcases List.mem_cons.mp hc with rfl | hc
            · exact hlt
            · exact hlt.trans (hl c hc)
        · exact he
        · have := h l
          rw [Memory.read_below (m := (k, w) :: m)] at this
          · simp only [Memory.read, if_true] at this
            exact absurd this.symm hu
          · intro c hc
            rcases List.mem_cons.mp hc with rfl | hc
            · exact hgt
            · exact hgt.trans (hk c hc)
      subst hkl
      have hwu : w = u := by simpa [Memory.read] using h k
      subst hwu
      congr 1
      refine ih hm' hn' fun a => ?_
      by_cases ha : k = a
      · subst ha
        rw [Memory.read_below hk, Memory.read_below hl]
      · simpa [Memory.read, ha] using h a

end Sys2Proof.Machine
end

