-- ==== Sys2Proof/Laws/State.lean ====
section
/-! SUPPORT. The small lemmas of State's updates: one per field per update, and the register file's read-over-write. -/

namespace Sys2Proof.Machine

variable (s : State) (t : Int) (r q : Reg) (v : Word)

/-! ## setPc and advancePc -/

@[simp] theorem setPc_pc : (s.setPc t).pc = BitVec.ofInt 32 t := rfl
@[simp] theorem setPc_regs : (s.setPc t).regs = s.regs := rfl
@[simp] theorem setPc_status : (s.setPc t).status = s.status := rfl
@[simp] theorem setPc_imem : (s.setPc t).imem = s.imem := rfl
@[simp] theorem setPc_labels : (s.setPc t).labels = s.labels := rfl
@[simp] theorem setPc_mem : (s.setPc t).mem = s.mem := rfl
@[simp] theorem setPc_dataBytes : (s.setPc t).dataBytes = s.dataBytes := rfl
@[simp] theorem setPc_readReg : (s.setPc t).readReg r = s.readReg r := rfl
@[simp] theorem setPc_instructionCount : (s.setPc t).instructionCount = s.instructionCount := rfl

@[simp] theorem advancePc_regs : s.advancePc.regs = s.regs := rfl
@[simp] theorem advancePc_status : s.advancePc.status = s.status := rfl
@[simp] theorem advancePc_imem : s.advancePc.imem = s.imem := rfl
@[simp] theorem advancePc_labels : s.advancePc.labels = s.labels := rfl
@[simp] theorem advancePc_mem : s.advancePc.mem = s.mem := rfl
@[simp] theorem advancePc_dataBytes : s.advancePc.dataBytes = s.dataBytes := rfl
@[simp] theorem advancePc_readReg : s.advancePc.readReg r = s.readReg r := rfl
@[simp] theorem advancePc_instructionCount : s.advancePc.instructionCount = s.instructionCount := rfl

/-! ## halt and haltAtEnd -/

@[simp] theorem halt_pc : s.halt.pc = s.pc := rfl
@[simp] theorem halt_regs : s.halt.regs = s.regs := rfl
@[simp] theorem halt_status : s.halt.status = .halted := rfl
@[simp] theorem halt_imem : s.halt.imem = s.imem := rfl
@[simp] theorem halt_labels : s.halt.labels = s.labels := rfl
@[simp] theorem halt_mem : s.halt.mem = s.mem := rfl
@[simp] theorem halt_dataBytes : s.halt.dataBytes = s.dataBytes := rfl
@[simp] theorem halt_readReg : s.halt.readReg r = s.readReg r := rfl
@[simp] theorem halt_instructionCount : s.halt.instructionCount = s.instructionCount := rfl

@[simp] theorem haltAtEnd_pc : s.haltAtEnd.pc = BitVec.ofInt 32 (4 * s.instructionCount) := rfl
@[simp] theorem haltAtEnd_regs : s.haltAtEnd.regs = s.regs := rfl
@[simp] theorem haltAtEnd_status : s.haltAtEnd.status = .halted := rfl
@[simp] theorem haltAtEnd_imem : s.haltAtEnd.imem = s.imem := rfl
@[simp] theorem haltAtEnd_labels : s.haltAtEnd.labels = s.labels := rfl
@[simp] theorem haltAtEnd_mem : s.haltAtEnd.mem = s.mem := rfl
@[simp] theorem haltAtEnd_dataBytes : s.haltAtEnd.dataBytes = s.dataBytes := rfl
@[simp] theorem haltAtEnd_readReg : s.haltAtEnd.readReg r = s.readReg r := rfl
@[simp] theorem haltAtEnd_instructionCount : s.haltAtEnd.instructionCount = s.instructionCount := rfl

/-! ## writeReg -/

theorem writeReg_zero : s.writeReg 0 v = s := if_pos rfl

theorem writeReg_ne (h : r ≠ 0) : s.writeReg r v = { s with regs := s.regs.set r.val v } := if_neg h

@[simp] theorem writeReg_pc : (s.writeReg r v).pc = s.pc := by unfold State.writeReg; split <;> rfl
@[simp] theorem writeReg_status : (s.writeReg r v).status = s.status := by unfold State.writeReg; split <;> rfl
@[simp] theorem writeReg_imem : (s.writeReg r v).imem = s.imem := by unfold State.writeReg; split <;> rfl
@[simp] theorem writeReg_labels : (s.writeReg r v).labels = s.labels := by unfold State.writeReg; split <;> rfl
@[simp] theorem writeReg_mem : (s.writeReg r v).mem = s.mem := by unfold State.writeReg; split <;> rfl
@[simp] theorem writeReg_dataBytes : (s.writeReg r v).dataBytes = s.dataBytes := by unfold State.writeReg; split <;> rfl
@[simp] theorem writeReg_instructionCount : (s.writeReg r v).instructionCount = s.instructionCount := by
  unfold State.writeReg; split <;> rfl

theorem readReg_zero : s.readReg 0 = 0 := if_pos rfl

/-- A write to a register reads back, unless the register is the hard-wired one. -/
theorem readReg_writeReg_same : (s.writeReg r v).readReg r = if r = 0 then 0 else v := by
  unfold State.writeReg State.readReg
  split <;> simp_all

/-- A write to a register leaves every other register. -/
theorem readReg_writeReg_other (h : q ≠ r) : (s.writeReg r v).readReg q = s.readReg q := by
  have hv : r.val ≠ q.val := fun e => h (Fin.ext e.symm)
  unfold State.writeReg State.readReg
  by_cases hr : r = 0 <;> by_cases hq : q = 0 <;> simp [hr, hq, hv]

/-- No write reaches slot 0 (10_state.md R23). -/
theorem writeReg_slot0 : (s.writeReg r v).regs[0] = s.regs[0] := by
  unfold State.writeReg
  split
  · rfl
  · rename_i h
    have hv : r.val ≠ 0 := fun e => h (Fin.ext e)
    simp [hv]

end Sys2Proof.Machine
end

