-- ==== Sys2Proof/Laws/Ops.lean ====
section
/-! SUPPORT. One lemma per shared operation that says all it can do: memory access, fetch, the execution of each record
type, `exec` and `step`. -/

namespace Sys2Proof.Machine

variable {s t : State} {addr : Int} {v : Word}

theorem inRange_iff {n : Nat} : inRange addr n = true ↔ 0 ≤ addr ∧ addr < n := by
  simp only [inRange, Bool.and_eq_true, decide_eq_true_eq]
  omega

theorem inRange_eq_false_iff {n : Nat} : inRange addr n = false ↔ ¬(0 ≤ addr ∧ addr < n) := by
  rw [← Bool.not_eq_true, inRange_iff]

/-- All a read can answer. -/
theorem memRead_cases (s : State) (addr : Int) :
    (¬(0 ≤ addr ∧ addr < s.dataBytes) ∧ s.memRead addr = .ok 0) ∨
    ((0 ≤ addr ∧ addr < s.dataBytes) ∧ addr % 4 ≠ 0 ∧ s.memRead addr = .error (.misalignedData addr)) ∨
    ((0 ≤ addr ∧ addr < s.dataBytes) ∧ addr % 4 = 0 ∧ s.memRead addr = .ok (s.mem.read addr.toNat)) := by
  unfold State.memRead
  by_cases h : 0 ≤ addr ∧ addr < s.dataBytes
  · have hf : ¬inRange addr s.dataBytes = false := fun e => inRange_eq_false_iff.mp e h
    by_cases h4 : addr.toNat % 4 = 0
    · exact .inr (.inr ⟨h, by omega, by rw [if_neg hf, if_neg (not_not_intro h4)]⟩)
    · exact .inr (.inl ⟨h, by omega, by rw [if_neg hf, if_pos h4]⟩)
  · exact .inl ⟨h, by rw [if_pos (inRange_eq_false_iff.mpr h)]⟩

/-- All a write can answer. -/
theorem memWrite_cases (s : State) (addr : Int) (v : Word) :
    (¬(0 ≤ addr ∧ addr < s.dataBytes) ∧ s.memWrite addr v = .error (.storeOutOfRange addr)) ∨
    ((0 ≤ addr ∧ addr < s.dataBytes) ∧ addr % 4 ≠ 0 ∧ s.memWrite addr v = .error (.misalignedData addr)) ∨
    ((0 ≤ addr ∧ addr < s.dataBytes) ∧ addr % 4 = 0 ∧
      s.memWrite addr v = .ok { s with mem := s.mem.write addr.toNat v }) := by
  unfold State.memWrite
  by_cases h : 0 ≤ addr ∧ addr < s.dataBytes
  · have hf : ¬inRange addr s.dataBytes = false := fun e => inRange_eq_false_iff.mp e h
    by_cases h4 : addr.toNat % 4 = 0
    · exact .inr (.inr ⟨h, by omega, by rw [if_neg hf, if_neg (not_not_intro h4)]⟩)
    · exact .inr (.inl ⟨h, by omega, by rw [if_neg hf, if_pos h4]⟩)
  · exact .inl ⟨h, by rw [if_pos (inRange_eq_false_iff.mpr h)]⟩

/-- All a fetch can find (45_engine.md R262 to R264). -/
theorem fetch_cases (s : State) :
    (4 * s.instructionCount ≤ u32 s.pc ∧ s.fetch = .outside) ∨
    (u32 s.pc < 4 * s.instructionCount ∧ u32 s.pc % 4 ≠ 0 ∧ s.fetch = .misaligned) ∨
    (u32 s.pc < 4 * s.instructionCount ∧ u32 s.pc % 4 = 0 ∧
      ∃ r, s.imem[u32 s.pc / 4]? = some r ∧ s.fetch = .record r) := by
  unfold State.fetch State.instructionCount
  by_cases h : 4 * s.imem.length ≤ u32 s.pc
  · exact .inl ⟨h, by rw [dif_pos h]⟩
  · by_cases h4 : u32 s.pc % 4 = 0
    · refine .inr (.inr ⟨by omega, h4, s.imem[u32 s.pc / 4]'(by omega), ?_, ?_⟩)
      · exact List.getElem?_eq_getElem (by omega)
      · rw [dif_neg h, if_neg (not_not_intro h4)]
    · exact .inr (.inl ⟨by omega, h4, by rw [dif_neg h, if_pos h4]⟩)

/-! ## What an instruction can do -/

/-- All an instruction can do when it completes: write its destination register and pass on; replace one cell and pass
on; or, a branch, fall through, halt at the end, or go to its target. -/
theorem exec_next_cases {i : Instr} (h : exec i s = .next t) :
    ((i.op.recordType = .r ∨ i.op.recordType = .i) ∧ ∃ v, t = (s.writeReg i.rdOrZero v).advancePc) ∨
    (i.op.recordType = .s ∧ ∃ u, s.memWrite (s.effectiveAddress i.rs1OrZero i.immOrZero) (s.readReg i.rs2OrZero) = .ok u ∧
      t = u.advancePc) ∨
    (i.op.recordType = .b ∧
      ((evaluate i.op (s.readReg i.rs1OrZero) (s.readReg i.rs2OrZero) = false ∧ t = s.advancePc) ∨
       (evaluate i.op (s.readReg i.rs1OrZero) (s.readReg i.rs2OrZero) = true ∧ i.immOrZero = 0 ∧ t = s.haltAtEnd) ∨
       (evaluate i.op (s.readReg i.rs1OrZero) (s.readReg i.rs2OrZero) = true ∧ i.immOrZero ≠ 0 ∧
        t = s.setPc (u32 s.pc + s32 i.immOrZero)))) := by
  have ofR : ∀ {op rd rs1 rs2}, execRType op rd rs1 rs2 s = .next t → ∃ v, t = (s.writeReg rd v).advancePc := by
    intro op rd rs1 rs2 h
    exact ⟨_, by injection h with h; exact h.symm⟩
  have ofI : ∀ {op rd rs1 imm}, execIArith op rd rs1 imm s = .next t → ∃ v, t = (s.writeReg rd v).advancePc := by
    intro op rd rs1 imm h
    exact ⟨_, by injection h with h; exact h.symm⟩
  have ofL : ∀ {rd rs1 imm}, execLoad rd rs1 imm s = .next t → ∃ v, t = (s.writeReg rd v).advancePc := by
    intro rd rs1 imm h
    unfold execLoad at h
    split at h
    · exact ⟨_, by injection h with h; exact h.symm⟩
    · cases h
  have ofS : ∀ {rs1 rs2 imm}, execStore rs1 rs2 imm s = .next t →
      ∃ u, s.memWrite (s.effectiveAddress rs1 imm) (s.readReg rs2) = .ok u ∧ t = u.advancePc := by
    intro rs1 rs2 imm h
    unfold execStore at h
    split at h
    · rename_i u hu
      exact ⟨u, hu, by injection h with h; exact h.symm⟩
    · cases h
  have ofB : ∀ {op rs1 rs2 imm}, execBranch op rs1 rs2 imm s = .next t →
      ((evaluate op (s.readReg rs1) (s.readReg rs2) = false ∧ t = s.advancePc) ∨
       (evaluate op (s.readReg rs1) (s.readReg rs2) = true ∧ imm = 0 ∧ t = s.haltAtEnd) ∨
       (evaluate op (s.readReg rs1) (s.readReg rs2) = true ∧ imm ≠ 0 ∧ t = s.setPc (u32 s.pc + s32 imm))) := by
    intro op rs1 rs2 imm h
    unfold execBranch at h
    split at h
    · exact .inl ⟨‹_›, by injection h with h; exact h.symm⟩
    · rename_i he
      have he := Bool.eq_true_of_not_eq_false he
      split at h
      · exact .inr (.inl ⟨he, ‹_›, by injection h with h; exact h.symm⟩)
      · exact .inr (.inr ⟨he, ‹_›, by injection h with h; exact h.symm⟩)
  cases i with
  | add _ _ _ | sub _ _ _ | and _ _ _ | or _ _ _ | xor _ _ _ | sll _ _ _ | srl _ _ _ | sra _ _ _ | slt _ _ _
  | sltu _ _ _ => exact .inl ⟨.inl rfl, ofR h⟩
  | addi _ _ _ | andi _ _ _ | ori _ _ _ | xori _ _ _ | slti _ _ _ | sltiu _ _ _ | slli _ _ _ | srli _ _ _
  | srai _ _ _ => exact .inl ⟨.inr rfl, ofI h⟩
  | lw _ _ _ | lb _ _ _ | lh _ _ _ | lbu _ _ _ | lhu _ _ _ | li _ _ _ => exact .inl ⟨.inr rfl, ofL h⟩
  | sw _ _ _ | sb _ _ _ | sh _ _ _ => exact .inr (.inl ⟨rfl, ofS h⟩)
  | beq _ _ _ | bne _ _ _ | blt _ _ _ | bge _ _ _ | bltu _ _ _ | bgeu _ _ _ => exact .inr (.inr ⟨rfl, ofB h⟩)

/-- All the ways an instruction can stop: a load or a store at a misaligned address in range, or a store out of range. -/
theorem exec_fault_cases {i : Instr} {f : Fault} (h : exec i s = .fault f) :
    ((i.op = .lw ∨ i.op = .sw) ∧ f = .misalignedData (s.effectiveAddress i.rs1OrZero i.immOrZero) ∧
      (0 ≤ s.effectiveAddress i.rs1OrZero i.immOrZero ∧ s.effectiveAddress i.rs1OrZero i.immOrZero < s.dataBytes) ∧
      s.effectiveAddress i.rs1OrZero i.immOrZero % 4 ≠ 0) ∨
    (i.op = .sw ∧ f = .storeOutOfRange (s.effectiveAddress i.rs1OrZero i.immOrZero) ∧
      ¬(0 ≤ s.effectiveAddress i.rs1OrZero i.immOrZero ∧ s.effectiveAddress i.rs1OrZero i.immOrZero < s.dataBytes)) := by
  have ofL : ∀ {rd rs1 imm}, execLoad rd rs1 imm s = .fault f → f = .misalignedData (s.effectiveAddress rs1 imm) ∧
      (0 ≤ s.effectiveAddress rs1 imm ∧ s.effectiveAddress rs1 imm < s.dataBytes) ∧
      s.effectiveAddress rs1 imm % 4 ≠ 0 := by
    intro rd rs1 imm h
    unfold execLoad at h
    rcases memRead_cases s (s.effectiveAddress rs1 imm) with ⟨_, e⟩ | ⟨hr, h4, e⟩ | ⟨_, _, e⟩ <;> rw [e] at h
    · cases h
    · exact ⟨by injection h with h; exact h.symm, hr, h4⟩
    · cases h
  have ofS : ∀ {rs1 rs2 imm}, execStore rs1 rs2 imm s = .fault f →
      (f = .misalignedData (s.effectiveAddress rs1 imm) ∧
        (0 ≤ s.effectiveAddress rs1 imm ∧ s.effectiveAddress rs1 imm < s.dataBytes) ∧
        s.effectiveAddress rs1 imm % 4 ≠ 0) ∨
      (f = .storeOutOfRange (s.effectiveAddress rs1 imm) ∧
        ¬(0 ≤ s.effectiveAddress rs1 imm ∧ s.effectiveAddress rs1 imm < s.dataBytes)) := by
    intro rs1 rs2 imm h
    unfold execStore at h
    rcases memWrite_cases s (s.effectiveAddress rs1 imm) (s.readReg rs2) with ⟨hr, e⟩ | ⟨hr, h4, e⟩ | ⟨_, _, e⟩ <;>
      rw [e] at h
    · exact .inr ⟨by injection h with h; exact h.symm, hr⟩
    · exact .inl ⟨by injection h with h; exact h.symm, hr, h4⟩
    · cases h
  have ofB : ∀ {op rs1 rs2 imm}, execBranch op rs1 rs2 imm s ≠ .fault f := by
    intro op rs1 rs2 imm h
    unfold execBranch at h
    split at h
    · cases h
    · split at h <;> cases h
  cases i with
  | add _ _ _ | sub _ _ _ | and _ _ _ | or _ _ _ | xor _ _ _ | sll _ _ _ | srl _ _ _ | sra _ _ _ | slt _ _ _
  | sltu _ _ _ | addi _ _ _ | andi _ _ _ | ori _ _ _ | xori _ _ _ | slti _ _ _ | sltiu _ _ _ | slli _ _ _
  | srli _ _ _ | srai _ _ _ => cases h
  | lw _ _ _ | lb _ _ _ | lh _ _ _ | lbu _ _ _ | lhu _ _ _ | li _ _ _ => exact .inl ⟨.inl rfl, ofL h⟩
  | sw _ _ _ | sb _ _ _ | sh _ _ _ => exact (ofS h).imp (fun h => ⟨.inr rfl, h⟩) (fun h => ⟨rfl, h⟩)
  | beq _ _ _ | bne _ _ _ | blt _ _ _ | bge _ _ _ | bltu _ _ _ | bgeu _ _ _ => exact absurd h ofB

/-- All a step can do when it answers a next state: the transition to Halted outside the valid range, or the instruction
of the record at the pc (45_engine.md R261). -/
theorem step_next_cases (h : step s = .next t) :
    (4 * s.instructionCount ≤ u32 s.pc ∧ t = s.halt) ∨
    (u32 s.pc < 4 * s.instructionCount ∧ u32 s.pc % 4 = 0 ∧
      ∃ r i, s.imem[u32 s.pc / 4]? = some r ∧ decode r.word = .ok i ∧ exec i s = .next t) := by
  unfold step at h
  rcases fetch_cases s with ⟨hp, e⟩ | ⟨_, _, e⟩ | ⟨hp, h4, r, hr, e⟩ <;> rw [e] at h
  · exact .inl ⟨hp, by injection h with h; exact h.symm⟩
  · cases h
  · refine .inr ⟨hp, h4, r, ?_⟩
    dsimp only at h
    split at h
    · cases h
    · exact ⟨_, hr, ‹_›, h⟩

end Sys2Proof.Machine
end

