-- ==== Sys2Proof/Laws/PerInstr.lean ====
section
/-! SUPPORT. The family EncodesItsTableRow: every instruction's packed word carries its opcode-table row's match under its
mask (30_encoding.md R94, R95; the numbers are those of spec/opcode_table.json). -/

namespace Sys2Proof.Laws.EncodesItsTableRow

/-- The `match` of an instruction's row. -/
def rowMatch : Instr → RecordWord
  | .add _ _ _ => 0x0000000000000000
  | .sub _ _ _ => 0x0000800000000000
  | .and _ _ _ => 0x0001000000000000
  | .or _ _ _ => 0x0001800000000000
  | .xor _ _ _ => 0x0002000000000000
  | .sll _ _ _ => 0x0002800000000000
  | .srl _ _ _ => 0x0003000000000000
  | .sra _ _ _ => 0x0003800000000000
  | .slt _ _ _ => 0x0004000000000000
  | .sltu _ _ _ => 0x0004800000000000
  | .addi _ _ _ => 0x0015000000000000
  | .andi _ _ _ => 0x0015800000000000
  | .ori _ _ _ => 0x0016000000000000
  | .xori _ _ _ => 0x0016800000000000
  | .slti _ _ _ => 0x0017000000000000
  | .sltiu _ _ _ => 0x0017800000000000
  | .slli _ _ _ => 0x0018000000000000
  | .srli _ _ _ => 0x0018800000000000
  | .srai _ _ _ => 0x0019000000000000
  | .lw _ _ _ => 0x0019800000000000
  | .lb _ _ _ => 0x0019800000000000
  | .lh _ _ _ => 0x0019800000000000
  | .lbu _ _ _ => 0x0019800000000000
  | .lhu _ _ _ => 0x0019800000000000
  | .li _ _ _ => 0x0019800000000000
  | .sw _ _ _ => 0x002A000000000000
  | .sb _ _ _ => 0x002A000000000000
  | .sh _ _ _ => 0x002A000000000000
  | .beq _ _ _ => 0x003A800000000000
  | .bne _ _ _ => 0x003B000000000000
  | .blt _ _ _ => 0x003B800000000000
  | .bge _ _ _ => 0x003C000000000000
  | .bltu _ _ _ => 0x003C800000000000
  | .bgeu _ _ _ => 0x003D000000000000

/-- Bits 63:47 of the instruction's word are those of its row. -/
def Statement (i : Instr) : Prop := encode i &&& selectMask = rowMatch i

theorem of_row {i : Instr} (o : Op) {m : RecordWord} (ho : i.op = o) (hm : rowMatch i = m)
    (h : packFields 0 o.recordType.number o.number 0 0 0 0 = m) : Statement i := by
  subst ho
  exact (packFields_and_selectMask ..).trans (h.trans hm.symm)

theorem add (a b : Reg) (c : Reg) : Statement (.add a b c) := of_row .add rfl rfl (by simp only [rowMatch]; decide)
theorem sub (a b : Reg) (c : Reg) : Statement (.sub a b c) := of_row .sub rfl rfl (by simp only [rowMatch]; decide)
theorem and (a b : Reg) (c : Reg) : Statement (.and a b c) := of_row .and rfl rfl (by simp only [rowMatch]; decide)
theorem or (a b : Reg) (c : Reg) : Statement (.or a b c) := of_row .or rfl rfl (by simp only [rowMatch]; decide)
theorem xor (a b : Reg) (c : Reg) : Statement (.xor a b c) := of_row .xor rfl rfl (by simp only [rowMatch]; decide)
theorem sll (a b : Reg) (c : Reg) : Statement (.sll a b c) := of_row .sll rfl rfl (by simp only [rowMatch]; decide)
theorem srl (a b : Reg) (c : Reg) : Statement (.srl a b c) := of_row .srl rfl rfl (by simp only [rowMatch]; decide)
theorem sra (a b : Reg) (c : Reg) : Statement (.sra a b c) := of_row .sra rfl rfl (by simp only [rowMatch]; decide)
theorem slt (a b : Reg) (c : Reg) : Statement (.slt a b c) := of_row .slt rfl rfl (by simp only [rowMatch]; decide)
theorem sltu (a b : Reg) (c : Reg) : Statement (.sltu a b c) := of_row .sltu rfl rfl (by simp only [rowMatch]; decide)
theorem addi (a b : Reg) (c : Word) : Statement (.addi a b c) := of_row .addi rfl rfl (by simp only [rowMatch]; decide)
theorem andi (a b : Reg) (c : Word) : Statement (.andi a b c) := of_row .andi rfl rfl (by simp only [rowMatch]; decide)
theorem ori (a b : Reg) (c : Word) : Statement (.ori a b c) := of_row .ori rfl rfl (by simp only [rowMatch]; decide)
theorem xori (a b : Reg) (c : Word) : Statement (.xori a b c) := of_row .xori rfl rfl (by simp only [rowMatch]; decide)
theorem slti (a b : Reg) (c : Word) : Statement (.slti a b c) := of_row .slti rfl rfl (by simp only [rowMatch]; decide)
theorem sltiu (a b : Reg) (c : Word) : Statement (.sltiu a b c) := of_row .sltiu rfl rfl (by simp only [rowMatch]; decide)
theorem slli (a b : Reg) (c : Word) : Statement (.slli a b c) := of_row .slli rfl rfl (by simp only [rowMatch]; decide)
theorem srli (a b : Reg) (c : Word) : Statement (.srli a b c) := of_row .srli rfl rfl (by simp only [rowMatch]; decide)
theorem srai (a b : Reg) (c : Word) : Statement (.srai a b c) := of_row .srai rfl rfl (by simp only [rowMatch]; decide)
theorem lw (a b : Reg) (c : Word) : Statement (.lw a b c) := of_row .lw rfl rfl (by simp only [rowMatch]; decide)
theorem lb (a b : Reg) (c : Word) : Statement (.lb a b c) := of_row .lw rfl rfl (by simp only [rowMatch]; decide)
theorem lh (a b : Reg) (c : Word) : Statement (.lh a b c) := of_row .lw rfl rfl (by simp only [rowMatch]; decide)
theorem lbu (a b : Reg) (c : Word) : Statement (.lbu a b c) := of_row .lw rfl rfl (by simp only [rowMatch]; decide)
theorem lhu (a b : Reg) (c : Word) : Statement (.lhu a b c) := of_row .lw rfl rfl (by simp only [rowMatch]; decide)
theorem li (a b : Reg) (c : Word) : Statement (.li a b c) := of_row .lw rfl rfl (by simp only [rowMatch]; decide)
theorem sw (a b : Reg) (c : Word) : Statement (.sw a b c) := of_row .sw rfl rfl (by simp only [rowMatch]; decide)
theorem sb (a b : Reg) (c : Word) : Statement (.sb a b c) := of_row .sw rfl rfl (by simp only [rowMatch]; decide)
theorem sh (a b : Reg) (c : Word) : Statement (.sh a b c) := of_row .sw rfl rfl (by simp only [rowMatch]; decide)
theorem beq (a b : Reg) (c : Word) : Statement (.beq a b c) := of_row .beq rfl rfl (by simp only [rowMatch]; decide)
theorem bne (a b : Reg) (c : Word) : Statement (.bne a b c) := of_row .bne rfl rfl (by simp only [rowMatch]; decide)
theorem blt (a b : Reg) (c : Word) : Statement (.blt a b c) := of_row .blt rfl rfl (by simp only [rowMatch]; decide)
theorem bge (a b : Reg) (c : Word) : Statement (.bge a b c) := of_row .bge rfl rfl (by simp only [rowMatch]; decide)
theorem bltu (a b : Reg) (c : Word) : Statement (.bltu a b c) := of_row .bltu rfl rfl (by simp only [rowMatch]; decide)
theorem bgeu (a b : Reg) (c : Word) : Statement (.bgeu a b c) := of_row .bgeu rfl rfl (by simp only [rowMatch]; decide)

end Sys2Proof.Laws.EncodesItsTableRow
end

