-- ==== Sys2Proof/Tests/Slice0.lean ====
section
/-! SUPPORT. Tests of the model. Expected results are the spec's: its encodings (30_encoding.md R93 to R95), its vectors and
worked examples (95_test_vectors.md; the number of each stands in the name or beside it), or hand calculation from a rule.
At the end, a witness for the hypotheses of every statement that has some. -/

namespace Sys2Proof.Tests

open Sys2Proof Sys2Proof.Machine

/-! ## Well-formedness: the one check, with each form it refuses (30_encoding.md R89, R95) -/

theorem test_wellFormed_refuses_lb : Instr.wellFormed (.lb 1 2 4) = false := by decide
theorem test_wellFormed_refuses_lh : Instr.wellFormed (.lh 1 2 4) = false := by decide
theorem test_wellFormed_refuses_lbu : Instr.wellFormed (.lbu 1 2 4) = false := by decide
theorem test_wellFormed_refuses_lhu : Instr.wellFormed (.lhu 1 2 4) = false := by decide
theorem test_wellFormed_refuses_li : Instr.wellFormed (.li 1 2 4) = false := by decide
theorem test_wellFormed_refuses_sb : Instr.wellFormed (.sb 1 2 4) = false := by decide
theorem test_wellFormed_refuses_sh : Instr.wellFormed (.sh 1 2 4) = false := by decide
theorem test_wellFormed_accepts_lw_sw : Instr.wellFormed (.lw 1 2 4) = true ∧ Instr.wellFormed (.sw 1 2 4) = true := by
  decide

/-! ## Decoding: a word of every record form, written field by field (30_encoding.md R93, R94): bits 63:55, type, op, rs2,
rs1, rd, imm -/

theorem test_decode_rType_words :
    decode 0b000000000_000_00000_01001_00101_00011_00000000000000000000000000000000 = .ok (.add 3 5 9) ∧
    decode 0b000000000_000_00001_01001_00101_00011_00000000000000000000000000000000 = .ok (.sub 3 5 9) ∧
    decode 0b000000000_000_00010_01001_00101_00011_00000000000000000000000000000000 = .ok (.and 3 5 9) ∧
    decode 0b000000000_000_00011_01001_00101_00011_00000000000000000000000000000000 = .ok (.or 3 5 9) ∧
    decode 0b000000000_000_00100_01001_00101_00011_00000000000000000000000000000000 = .ok (.xor 3 5 9) ∧
    decode 0b000000000_000_00101_01001_00101_00011_00000000000000000000000000000000 = .ok (.sll 3 5 9) ∧
    decode 0b000000000_000_00110_01001_00101_00011_00000000000000000000000000000000 = .ok (.srl 3 5 9) ∧
    decode 0b000000000_000_00111_01001_00101_00011_00000000000000000000000000000000 = .ok (.sra 3 5 9) ∧
    decode 0b000000000_000_01000_01001_00101_00011_00000000000000000000000000000000 = .ok (.slt 3 5 9) ∧
    decode 0b000000000_000_01001_01001_00101_00011_00000000000000000000000000000000 = .ok (.sltu 3 5 9) := by decide

theorem test_decode_iArith_words :
    decode 0b000000000_001_01010_00000_10001_11110_11111111111111111111111111110101 = .ok (.addi 30 17 (-11)) ∧
    decode 0b000000000_001_01011_00000_10001_11110_11111111111111111111111111110100 = .ok (.andi 30 17 (-12)) ∧
    decode 0b000000000_001_01100_00000_10001_11110_11111111111111111111111111110011 = .ok (.ori 30 17 (-13)) ∧
    decode 0b000000000_001_01101_00000_10001_11110_11111111111111111111111111110010 = .ok (.xori 30 17 (-14)) ∧
    decode 0b000000000_001_01110_00000_10001_11110_11111111111111111111111111110001 = .ok (.slti 30 17 (-15)) ∧
    decode 0b000000000_001_01111_00000_10001_11110_11111111111111111111111111110000 = .ok (.sltiu 30 17 (-16)) ∧
    decode 0b000000000_001_10000_00000_10001_11110_11111111111111111111111111101111 = .ok (.slli 30 17 (-17)) ∧
    decode 0b000000000_001_10001_00000_10001_11110_11111111111111111111111111101110 = .ok (.srli 30 17 (-18)) ∧
    decode 0b000000000_001_10010_00000_10001_11110_11111111111111111111111111101101 = .ok (.srai 30 17 (-19)) := by decide

theorem test_decode_loadStore_words :
    decode 0b000000000_001_10011_00000_10001_11110_11111111111111111111111111101100 = .ok (.lw 30 17 (-20)) ∧
    decode 0b000000000_010_10100_10010_01100_00000_00000000000000000000000001100000 = .ok (.sw 12 18 0x60) := by decide

theorem test_decode_branch_words :
    decode 0b000000000_011_10101_11000_00110_00000_00000000000000000000000000001000 = .ok (.beq 6 24 8) ∧
    decode 0b000000000_011_10110_11000_00110_00000_00000000000000000000000000001100 = .ok (.bne 6 24 12) ∧
    decode 0b000000000_011_10111_11000_00110_00000_00000000000000000000000000010000 = .ok (.blt 6 24 16) ∧
    decode 0b000000000_011_11000_11000_00110_00000_00000000000000000000000000010100 = .ok (.bge 6 24 20) ∧
    decode 0b000000000_011_11001_11000_00110_00000_00000000000000000000000000011000 = .ok (.bltu 6 24 24) ∧
    decode 0b000000000_011_11010_11000_00110_00000_00000000000000000000000000011100 = .ok (.bgeu 6 24 28) := by decide

/-- The alias mnemonics have the words of lw and sw (30_encoding.md R89; AS5, AS6 of 95_test_vectors.md). -/
theorem test_decode_alias_words :
    encode (.lb 31 27 16) = 0b000000000_001_10011_00000_11011_11111_00000000000000000000000000010000 ∧
    encode (.lh 31 27 16) = 0b000000000_001_10011_00000_11011_11111_00000000000000000000000000010000 ∧
    encode (.lbu 31 27 16) = 0b000000000_001_10011_00000_11011_11111_00000000000000000000000000010000 ∧
    encode (.lhu 31 27 16) = 0b000000000_001_10011_00000_11011_11111_00000000000000000000000000010000 ∧
    encode (.li 31 27 16) = 0b000000000_001_10011_00000_11011_11111_00000000000000000000000000010000 ∧
    encode (.sb 2 1 (-4)) = 0b000000000_010_10100_00001_00010_00000_11111111111111111111111111111100 ∧
    encode (.sh 2 1 (-4)) = 0b000000000_010_10100_00001_00010_00000_11111111111111111111111111111100 := by decide

/-- Every other word decodes to no instruction, and the rejection names what is wrong (30_encoding.md R94). -/
theorem test_decode_rejects_by_name :
    decode 0b000000001_000_00000_00000_00000_00000_00000000000000000000000000000000 = .error .zeroBitsSet ∧
    decode 0b100000000_000_00000_00000_00000_00000_00000000000000000000000000000000 = .error .zeroBitsSet ∧
    decode 0b000000000_100_00000_00000_00000_00000_00000000000000000000000000000000 = .error (.unknownType 4) ∧
    decode 0b000000000_111_00000_00000_00000_00000_00000000000000000000000000000000 = .error (.unknownType 7) ∧
    decode 0b000000000_000_11011_00000_00000_00000_00000000000000000000000000000000 = .error (.unknownOp 27) ∧
    decode 0b000000000_011_11111_00000_00000_00000_00000000000000000000000000000000 = .error (.unknownOp 31) ∧
    decode 0b000000000_001_00000_00000_00000_00000_00000000000000000000000000000000 = .error (.opNotOfType .i .add) ∧
    decode 0b000000000_010_10011_00000_00000_00000_00000000000000000000000000000000 = .error (.opNotOfType .s .lw) ∧
    decode 0b000000000_001_10101_00000_00000_00000_00000000000000000000000000000000 = .error (.opNotOfType .i .beq) := by
  decide

/-- A field the type does not have is ignored: rs2 and imm bits beside an add, rd bits beside a beq (30_encoding.md R94). -/
theorem test_decode_ignores_absent_fields :
    decode 0b000000000_000_00000_01001_00101_00011_11111111111111111111111111111111 = .ok (.add 3 5 9) ∧
    decode 0b000000000_001_01010_11111_10001_11110_00000000000000000000000000000111 = .ok (.addi 30 17 7) ∧
    decode 0b000000000_010_10100_10010_01100_11111_00000000000000000000000001100000 = .ok (.sw 12 18 0x60) ∧
    decode 0b000000000_011_10101_11000_00110_11111_00000000000000000000000000001000 = .ok (.beq 6 24 8) := by decide

theorem test_decodeTableWord :
    decodeTableWord 64 0x0015000500000000 = some (.addi 5 0 0) ∧ decodeTableWord 64 (2 ^ 64 + 0x003A800000000000) = some (.beq 0 0 0) ∧
    decodeTableWord 32 0x0015000500000000 = some (.add 0 0 0) ∧ decodeTableWord 72 0x0015000500000000 = none := by decide

/-! ## One step on a small state -/

/-- The next state of an outcome. -/
def nextOf : StepResult → Option State
  | .next t => some t
  | .fault _ | .refused _ => none

/-- The fault of an outcome. -/
def faultOf : StepResult → Option Fault
  | .fault f => some f
  | .next _ | .refused _ => none

/-- A record that holds an instruction. -/
def recordFor (i : Instr) (k : Nat) : Record := recordOf i (4 * k) []

/-- A program of these instructions. -/
def program (is : List Instr) : List Record := is.zipIdx.map (fun p => recordFor p.1 p.2)

/-- A ready machine with N = 64, these registers, these cells, this program and this pc. -/
def ready (regs : List (Reg × Word)) (mem : Memory) (is : List Instr) (pc : Word) : State :=
  regs.foldl (fun s p => s.writeReg p.1 p.2)
    { State.powerOn 64 with status := .ready, imem := program is, mem := mem, pc := pc }

/-- What one `exec` leaves in a register, with x1 = a and x2 = b; none if the pc is not 4 more. -/
def result (i : Instr) (a b : Word) (rd : Reg) : Option Word :=
  match nextOf (exec i (ready [(1, a), (2, b)] [(8, 42), (12, 0xFFFFFFFF)] [i] 0)) with
  | some t => if t.pc = 4 then some (t.readReg rd) else none
  | none => none

theorem test_add : result (.add 3 1 2) 0x7FFFFFFF 1 3 = some 0x80000000 ∧ result (.add 3 1 2) 0xFFFFFFFF 1 3 = some 0 := by
  decide -- A1, A2
theorem test_sub : result (.sub 3 1 2) 0 1 3 = some 0xFFFFFFFF ∧ result (.sub 3 1 2) 0x80000000 1 3 = some 0x7FFFFFFF := by
  decide -- A4, A5
theorem test_and : result (.and 3 1 2) 0xF0F0F0F0 0x0FF00FF0 3 = some 0x00F000F0 := by decide -- A7
theorem test_or : result (.or 3 1 2) 0xF0F0F0F0 0x0FF00FF0 3 = some 0xFFF0FFF0 := by decide -- A8
theorem test_xor : result (.xor 3 1 2) 0xF0F0F0F0 0x0FF00FF0 3 = some 0xFF00FF00 := by decide -- A9
theorem test_sll : result (.sll 3 1 2) 0x80000001 1 3 = some 2 ∧ result (.sll 3 1 2) 1 0x20 3 = some 1 ∧
    result (.sll 3 1 2) 1 0xFFFFFFFF 3 = some 0x80000000 := by decide -- A11, A12, A14
theorem test_srl : result (.srl 3 1 2) 0xFFFFFFF8 0x1C 3 = some 0xF ∧ result (.srl 3 1 2) 0x80000000 0x20 3 = some 0x80000000 ∧
    result (.srl 3 1 2) 0xFFFFFFFF 0xFFFFFFFF 3 = some 1 := by decide -- A17, A19, A20
theorem test_sra : result (.sra 3 1 2) 0x80000000 0x1F 3 = some 0xFFFFFFFF ∧ result (.sra 3 1 2) 0x7FFFFFFF 0x1F 3 = some 0 ∧
    result (.sra 3 1 2) 0x80000000 0x20 3 = some 0x80000000 := by decide -- A21, A23, A24
theorem test_slt : result (.slt 3 1 2) 0xFFFFFFFF 1 3 = some 1 ∧ result (.slt 3 1 2) 1 0xFFFFFFFF 3 = some 0 ∧
    result (.slt 3 1 2) 5 5 3 = some 0 := by decide -- A27, A28, A30
theorem test_sltu : result (.sltu 3 1 2) 0xFFFFFFFF 1 3 = some 0 ∧ result (.sltu 3 1 2) 1 0xFFFFFFFF 3 = some 1 ∧
    result (.sltu 3 1 2) 0 0 3 = some 0 := by decide -- A31, A32, A34
theorem test_addi : result (.addi 3 1 (-1)) 5 0 3 = some 4 ∧ result (.addi 3 1 1) 0x7FFFFFFF 0 3 = some 0x80000000 := by
  decide -- I1, I2
theorem test_andi : result (.andi 3 1 0xFF) 0x12345678 0 3 = some 0x78 := by decide -- I3
theorem test_ori : result (.ori 3 1 0xFF) 0x12345678 0 3 = some 0x123456FF := by decide -- I4
theorem test_xori : result (.xori 3 1 (-1)) 0x12345678 0 3 = some 0xEDCBA987 := by decide -- I5
theorem test_slti : result (.slti 3 1 (-7)) 0xFFFFFFF8 0 3 = some 1 ∧ result (.slti 3 1 (-1)) 0 0 3 = some 0 := by
  decide -- I6, I7
theorem test_sltiu : result (.sltiu 3 1 (-1)) 5 0 3 = some 1 ∧ result (.sltiu 3 1 (-1)) 0xFFFFFFFF 0 3 = some 0 ∧
    result (.sltiu 3 1 0) 7 0 3 = some 0 := by decide -- I8, I9, I11
theorem test_slli : result (.slli 3 1 33) 0xFFFFFFF8 0 3 = some 0xFFFFFFF0 ∧ result (.slli 3 1 (-1)) 1 0 3 = some 0x80000000 := by
  decide -- I12, I13
theorem test_srli : result (.srli 3 1 28) 0xFFFFFFF8 0 3 = some 0xF ∧ result (.srli 3 1 60) 0xFFFFFFF8 0 3 = some 0xF := by
  decide -- I14, I15
theorem test_srai : result (.srai 3 1 1) 0xFFFFFFF8 0 3 = some 0xFFFFFFFC ∧ result (.srai 3 1 35) 0xFFFFFFF8 0 3 = some 0xFFFFFFFF := by
  decide -- I16, I17

/-- G1 to G3 and G5: the sources are read before the destination is written, and a write to x0 is discarded. -/
theorem test_same_source_and_destination :
    result (.add 1 1 1) 7 0 1 = some 14 ∧ result (.sub 1 1 1) 7 0 1 = some 0 ∧ result (.add 0 1 1) 7 0 0 = some 0 ∧
    result (.add 0 1 1) 7 0 1 = some 7 ∧ result (.addi 2 2 1) 0 9 2 = some 10 := by decide

/-! ## Loads and stores (section 4 of 95_test_vectors.md), N = 64 -/

/-- The machine of the vectors: x1 = a, x5 = 42, x7 = -1, `mem[8]` = 42 and `mem[12]` = -1. -/
def memState (a : Word) : State := ready [(1, a), (5, 42), (7, 0xFFFFFFFF)] [(8, 42), (12, 0xFFFFFFFF)] [.lw 1 0 0] 0

/-- The cell that one `exec` leaves at an address, with the number of listed cells. -/
def cellAfter (i : Instr) (a : Word) (addr : Nat) : Option (Word × Nat) :=
  (nextOf (exec i (memState a))).map (fun t => (t.mem.read addr, t.mem.length))

theorem test_lw : result (.lw 6 0 8) 0 0 6 = some 42 ∧ result (.lw 6 0 60) 0 0 6 = some 0 ∧
    result (.lw 2 1 12) (-4) 0 2 = some 42 := by decide -- M2, M3, M14
theorem test_lw_out_of_range : result (.lw 9 0 (-4)) 0 0 9 = some 0 ∧ result (.lw 9 0 64) 0 0 9 = some 0 ∧
    result (.lw 9 0 66) 0 0 9 = some 0 ∧ result (.lw 2 1 0x80000000) 0x80000000 5 2 = some 0 := by
  decide -- M4 to M6, M15
theorem test_lb : result (.lb 8 0 12) 0 0 8 = some 0xFFFFFFFF := by decide -- M13
theorem test_lh : result (.lh 8 0 12) 0 0 8 = some 0xFFFFFFFF := by decide -- R230
theorem test_lbu : result (.lbu 8 0 12) 0 0 8 = some 0xFFFFFFFF := by decide -- M12
theorem test_lhu : result (.lhu 8 0 12) 0 0 8 = some 0xFFFFFFFF := by decide -- R232
theorem test_li : result (.li 10 0 0x3C) 0 0 10 = some 0 ∧ result (.li 10 0 8) 0 0 10 = some 42 := by decide -- P2, R233
theorem test_lw_to_x0 : result (.lw 0 0 8) 0 0 0 = some 0 := by decide -- M16
theorem test_misaligned : faultOf (exec (.lw 9 0 2) (memState 0)) = some (.misalignedData 2) ∧
    faultOf (exec (.sw 1 1 0) (memState 2)) = some (.misalignedData 2) := by decide -- M7, M10
theorem test_store_out_of_range : faultOf (exec (.sw 0 5 64) (memState 0)) = some (.storeOutOfRange 64) ∧
    faultOf (exec (.sw 0 5 (-4)) (memState 0)) = some (.storeOutOfRange (-4)) := by decide -- M8, M9
theorem test_sw : cellAfter (.sw 0 5 16) 0 16 = some (42, 3) ∧ cellAfter (.sw 1 5 4) (-4) 0 = some (42, 3) := by decide -- M1
theorem test_sb : cellAfter (.sb 0 7 8) 0 8 = some (0xFFFFFFFF, 2) := by decide -- M11
theorem test_sh : cellAfter (.sh 0 7 60) 0 60 = some (0xFFFFFFFF, 3) := by decide -- R235
/-- Storing what an unlisted cell reads as removes the cell from the list. -/
theorem test_sw_zero_removes : cellAfter (.sw 0 0 8) 0 8 = some (0, 1) := by decide

/-! ## Branches (section 3 of 95_test_vectors.md) -/

/-- The Branch Evaluator's six answers on two words. -/
def evaluations (a b : Word) : List Bool := [Op.beq, .bne, .blt, .bge, .bltu, .bgeu].map (fun o => evaluate o a b)

theorem test_evaluate :
    evaluations 0 0 = [true, false, false, true, false, true] ∧
    evaluations 0xFFFFFFFF 1 = [false, true, true, false, false, true] ∧
    evaluations 1 0xFFFFFFFF = [false, true, false, true, true, false] ∧
    evaluations 0x80000000 0x7FFFFFFF = [false, true, true, false, false, true] := by decide

/-- The pc and status after one branch, with x1 = 1, x2 = -1, in a program of 3 records, at pc 4. -/
def branchAfter (i : Instr) : Option (Word × Status) :=
  (nextOf (exec i (ready [(1, 1), (2, 0xFFFFFFFF)] [] [.add 0 0 0, i, .add 0 0 0] 4))).map (fun t => (t.pc, t.status))

theorem test_beq : branchAfter (.beq 1 1 0) = some (12, .halted) ∧ branchAfter (.beq 1 2 0) = some (8, .ready) := by
  decide -- B2, B1
theorem test_bne : branchAfter (.bne 1 2 8) = some (12, .ready) ∧ branchAfter (.bne 1 1 8) = some (8, .ready) := by
  decide -- B3, B5
theorem test_blt : branchAfter (.blt 2 1 (-8)) = some (0xFFFFFFFC, .ready) ∧ branchAfter (.blt 1 2 (-8)) = some (8, .ready) := by
  decide -- B4
theorem test_bge : branchAfter (.bge 1 2 (-4)) = some (0, .ready) ∧ branchAfter (.bge 2 1 (-4)) = some (8, .ready) := by
  decide -- S7
theorem test_bltu : branchAfter (.bltu 1 2 0) = some (12, .halted) ∧ branchAfter (.bltu 2 1 0) = some (8, .ready) := by
  decide -- R252
theorem test_bgeu : branchAfter (.bgeu 2 1 2) = some (6, .ready) ∧ branchAfter (.bgeu 1 2 2) = some (8, .ready) := by
  decide -- R253, B6

/-! ## The fetch, from reset and from a small state -/

/-- The very next step from reset runs the word put where it fetches; with no program it halts (E2). -/
theorem test_withFetchWord_runs :
    (nextOf (step (State.reset.withFetchWord 64 0x0015000500000007))).map (fun t => (t.readReg 5, t.pc)) = some (7, 4) ∧
    (nextOf (step State.reset)).map (·.status) = some .halted := by decide

/-- B6 and R266: a misaligned fetch and a word that is no record are ExecutionErrors. -/
theorem test_executionErrors :
    stepCall (ready [] [] [.add 0 0 0, .add 0 0 0, .add 0 0 0] 6) = (.error (.misalignedFetch 6), ready [] [] [.add 0 0 0, .add 0 0 0, .add 0 0 0] 6) ∧
    faultOf (step (State.reset.withFetchWord 64 0x0040000000000000)) =
      some (.executionError (.unrecognisedRecord 4 (.unknownType 4))) := by decide

/-! ## The assembler (40_assembler.md; section 4 of 95_test_vectors.md) -/

/-- The record words that a source text assembles to. -/
def words (source : String) : Except ParseError (List RecordWord) := (assemble source.toList).map (fun p => p.1.map (·.word))

/-- The kind and token of a source text's ParseError. -/
def parseError (source : String) : Option (ParseErrorKind × String) :=
  match assemble source.toList with
  | .error e => some (e.kind, String.ofList e.token)
  | .ok _ => none

/-- AS1 to AS9, each as the word of its record. -/
theorem test_assembler_accepts :
    words "ADD 3, 1, 2" = .ok [encode (.add 3 1 2)] ∧ words "add a0 a1 a2" = .ok [encode (.add 10 11 12)] ∧
    words "addi fp, sp, -16   # frame" = .ok [encode (.addi 8 2 (-16))] ∧
    words "andi t0, t0, 0b1010" = .ok [encode (.andi 5 5 10)] ∧ words "lhu t6, 0x10(s11)" = .ok [encode (.lw 31 27 16)] ∧
    words "sh ra, -4(sp)" = .ok [encode (.sw 2 1 (-4))] ∧ words "li x10, 0x3C(zero)" = .ok [encode (.lw 10 0 60)] ∧
    words "beq x0, x0, 8" = .ok [encode (.beq 0 0 8)] ∧ words "slli x1, x1, 33" = .ok [encode (.slli 1 1 33)] := by decide

/-- AR1 to AR7. -/
theorem test_assembler_refuses_a :
    parseError "foo x1, x2, x3" = some (.unsupportedInstruction, "foo") ∧ parseError "li x1, 5" = some (.formatError, "li") ∧
    parseError "lw x1, (x2)" = some (.formatError, "lw") ∧ parseError "lw x1, buf(x2)" = some (.formatError, "lw") ∧
    parseError "start: addi x1,x0,1" = some (.unsupportedInstruction, "start:") ∧
    parseError "add x1, x2" = some (.badOperandCount, "add") ∧ parseError "add x1, x2, q7" = some (.badRegister, "q7") := by
  decide

/-- AR8 to AR14. -/
theorem test_assembler_refuses_b :
    parseError "add x32, x0, x0" = some (.badRegister, "x32") ∧
    parseError "addi x1, x0, 0xFFFFFFFF" = some (.badImmediate, "0xFFFFFFFF") ∧
    parseError "beq x0,x0,nowhere" = some (.badImmediate, "nowhere") ∧ parseError "a:\na:" = some (.duplicateLabel, "a") ∧
    parseError "nop" = some (.unsupportedInstruction, "nop") ∧ parseError "jal ra, f" = some (.unsupportedInstruction, "jal") ∧
    parseError "add X1, x2, x3" = some (.badRegister, "X1") := by decide

/-- A label with no name is BadLabel, with its line counted from 1 (40_assembler.md R125, R121, R160). -/
theorem test_assembler_badLabel :
    (match assemble "add x0,x0,x0\n  :".toList with
      | .error e => some (e.kind, e.lineNumber, String.ofList e.line)
      | .ok _ => none) = some (.badLabel, 2, "  :") := by decide

/-- S3, S7 and P4: labels resolve to distances, and the words are the spec's. -/
theorem test_assembler_labels :
    words "loop:\nbeq x0, x0, loop\naddi x1, x0, 7" = .ok [0x003A800000000000, 0x0015000100000007] ∧
    words "start:\naddi x1,x0,1\nbeq x1,x1,start" = .ok [0x0015000100000001, 0x003A8420FFFFFFFC] ∧
    words " addi x1, x0, tgt\n addi x2, x0, tgt\ntgt:\n add  x3, x1, x2" =
      .ok [0x0015000100000008, 0x0015000200000004, 0x0000082300000000] := by decide

/-- P2, its lines in two halves. -/
theorem test_assembler_P2 :
    words "addi x5, x0, 42\nsw x5, 8(x0)\nlw x6, 8(x0)\naddi x7, x0, -1" =
      .ok [0x001500050000002A, 0x002A140000000008, 0x0019800600000008, 0x00150007FFFFFFFF] ∧
    words "sb x7, 12(x0)\nlbu x8, 12(x0)\nlw x9, -4(x0)\nli x10, 0x3C(x0)" =
      .ok [0x002A1C000000000C, 0x001980080000000C, 0x00198009FFFFFFFC, 0x0019800A0000003C] := by decide

/-! ## The host's operations (section 6 of 95_test_vectors.md) -/

/-- A source text loaded into a fresh engine with N = 64. -/
def loaded (source : String) : Except ParseError Nat × State := load source.toList (State.powerOn 64)

/-- E4 and E5: an empty program loads, and the engine is Idle. -/
theorem test_load_empty :
    (loaded "").1 = .ok 0 ∧ (loaded "").2.status = .idle ∧ (loaded "# only a comment\nend:\n").1 = .ok 0 ∧
    (loaded "# only a comment\nend:\n").2.labels = [("end".toList, 0)] := by decide

/-- S3: one step of the self-loop program. -/
theorem test_self_loop_halts :
    let r := stepCall (loaded "loop:\nbeq x0, x0, loop\naddi x1, x0, 7").2
    r.1 = .executed 0 ∧ currentPC r.2 = 8 ∧ isHalted r.2 = true ∧ inspectRegisters r.2 = List.replicate 32 0 := by decide

/-- S8: a failed load leaves the loaded program and its state. -/
theorem test_failed_load_changes_nothing :
    let s := (stepCall (loaded "addi x5, x0, 42\nsw x5, 8(x0)\nlw x6, 8(x0)").2).2
    (load "foo x1, x2, x3".toList s).2 = s ∧ s.instructionCount = 3 ∧ s.readReg 5 = 42 := by decide

/-- E3 and R275: reset of a halted engine with no program, and of one with a program. -/
theorem test_reset :
    ((stepCall (State.powerOn 64)).2.hostReset).status = .idle ∧
    (stepCall (loaded "addi x5, x0, 42").2).2.hostReset = (loaded "addi x5, x0, 42").2 := by decide

/-- `run()` on P5 returns the fault; on a self-loop it returns Halted; a set flag cancels it first (R273). -/
theorem test_run :
    (runFor (fun _ => false) 5 0 (loaded "addi x1, x0, 2\nsw x1, 0(x1)").2).map (·.1) =
      some (.stopped (.fault (.misalignedData 2))) ∧
    (runFor (fun _ => false) 5 0 (loaded "beq x0, x0, 0").2).map (·.1) = some .halted ∧
    (runFor (fun k => k = 1) 5 0 (loaded "add x0, x0, x0").2).map (·.1) = some .cancelled := by decide

/-- `inspectMemory` lists the cells of the range (20_memory.md R66, D29). -/
theorem test_inspectMemory : inspectMemory (fun a => 5 ≤ a && a ≤ 12) (memState 0) = [(8, 42), (12, -1)] := by decide

/-! ## Witnesses: the hypotheses of each statement hold together somewhere, each clause at a boundary of its range -/

theorem test_witness_RecordFormsRoundTrip :
    Instr.wellFormed (.addi 31 31 0xFFFFFFFF) = true ∧ Instr.wellFormed (.add 31 31 31) = true ∧
    Instr.wellFormed (.sw 31 31 0x80000000) = true ∧ Instr.wellFormed (.bgeu 31 31 0x7FFFFFFF) = true := by decide

theorem test_witness_AliasWordsAreTheirRecords : Instr.li ∈ loadMnemonics ∧ Instr.sh ∈ storeMnemonics :=
  ⟨List.mem_of_getElem? (i := 5) rfl, List.mem_of_getElem? (i := 2) rfl⟩

/-- One word of each type. -/
theorem test_witness_DecodedFieldsAreTheWordsFields :
    decode 0x0000044200000000 = .ok (.add 2 2 1) ∧ decode 0x0015000100000007 = .ok (.addi 1 0 7) ∧
    decode 0x002A1C000000000C = .ok (.sw 0 7 12) ∧ decode 0x003A800000000000 = .ok (.beq 0 0 0) := by decide

/-- The least, an ordinary and the greatest N. -/
theorem test_witness_PowerOnMeetsInv : SizeOk 4 ∧ SizeOk 64 ∧ SizeOk 2147483648 := by decide

theorem test_witness_ResetClearsAndKeepsProgram :
    0 < (ready [] [] [.add 0 0 0] 0).instructionCount ∧ (ready [] [] [] 0).instructionCount = 0 := by decide

theorem test_witness_RegisterZeroNeverHoldsAValue :
    (1 : Reg) ≠ 0 ∧ (31 : Reg) ≠ 0 ∧
    (∃ t, (ready [] [] [.addi 0 0 5] 0).regs[0] = 0 ∧ step (ready [] [] [.addi 0 0 5] 0) = .next t) ∧
    Reachable (stepCall (loaded "addi x0,x0,5").2).2 :=
  ⟨by decide, by decide, ⟨_, by decide, rfl⟩, .step (.load _ (.powerOn (by decide)))⟩

theorem test_witness_InspectMemoryShowsTheCellsInRange : (60, 0) ∈ inspectMemory (fun _ => true) (memState 0) := by decide

theorem test_witness_AluFollowsItsTable : Op.addi ∈ [Op.add, .addi] ∧
    Op.bgeu ∈ [Op.lw, .sw, .beq, .bne, .blt, .bge, .bltu, .bgeu] := by
  decide

/-- A state for the loads and stores: N = 64, x1 = a. The sum is x1's signed reading plus the immediate. -/
abbrev sumOf (a imm : Word) : Int := s32 ((memState a).readReg 1) + s32 imm

/-- The first and the last cell, by a positive and by a negative base. -/
theorem test_witness_LoadsReadTheWholeCell :
    (0 ≤ sumOf 4 (-4) ∧ sumOf 4 (-4) < (memState 4).dataBytes ∧ sumOf 4 (-4) % 4 = 0) ∧
    (0 ≤ sumOf (-4) 64 ∧ sumOf (-4) 64 < (memState (-4)).dataBytes ∧ sumOf (-4) 64 % 4 = 0) := by decide

/-- One below the range, N itself, N + 2, and a sum that a 32-bit adder would wrap to 0. -/
theorem test_witness_LoadsOutOfRangeGiveZero :
    sumOf 0 (-1) < 0 ∧ (memState 64).dataBytes ≤ sumOf 64 0 ∧ (memState 64).dataBytes ≤ sumOf 64 2 ∧
    sumOf 0x80000000 0x80000000 < 0 := by decide

/-- The first and the last misaligned address in range. -/
theorem test_witness_LoadsMisalignedFault :
    (0 ≤ sumOf 1 0 ∧ sumOf 1 0 < (memState 1).dataBytes ∧ sumOf 1 0 % 4 ≠ 0) ∧
    (0 ≤ sumOf 63 0 ∧ sumOf 63 0 < (memState 63).dataBytes ∧ sumOf 63 0 % 4 ≠ 0) := by decide

theorem test_witness_StoresReplaceTheWholeCell :
    (memState 60).mem.wf ∧ (0 ≤ sumOf 0 0 ∧ sumOf 0 0 < (memState 0).dataBytes ∧ sumOf 0 0 % 4 = 0) ∧
    (0 ≤ sumOf 60 0 ∧ sumOf 60 0 < (memState 60).dataBytes ∧ sumOf 60 0 % 4 = 0) := by decide

theorem test_witness_StoresStopOutsideTheirCells :
    sumOf 0 (-4) < 0 ∧ (memState 64).dataBytes ≤ sumOf 64 0 ∧
    (0 ≤ sumOf 62 0 ∧ sumOf 62 0 < (memState 62).dataBytes ∧ sumOf 62 0 % 4 ≠ 0) := by decide

theorem test_witness_StoreThenLoadRoundTrips : ∃ t, (memState 60).mem.wf ∧ exec (.sw 1 5 0) (memState 60) = .next t :=
  ⟨_, by decide, rfl⟩

/-- A run of two steps: a store and a load. -/
def storing : State := ready [(5, 42)] [] [.sw 0 5 8, .lw 6 0 8] 0

theorem storeRun_step {s t u : State} {log : List (Nat × Word)} (c : Option (Nat × Word)) (h : StoreRun s log t)
    (hc : pendingStore t = c) (hs : step t = .next u) : StoreRun s (log ++ c.toList) u := hc ▸ .step h hs

theorem test_witness_CellsHoldTheLatestStore :
    ∃ u, storing.mem.wf ∧ StoreRun storing [(8, 42)] u ∧ (6 : Reg) ≠ 0 ∧ 0 ≤ s32 (u.readReg 0) + s32 60 ∧
      s32 (u.readReg 0) + s32 60 < u.dataBytes ∧ (s32 (u.readReg 0) + s32 60) % 4 = 0 :=
  ⟨_, by decide, storeRun_step none (storeRun_step (some (8, 42)) .start (by decide) rfl) (by decide) rfl, by decide, by decide,
    by decide, by decide⟩

/-- For each branch: a state in which it is not taken, and one in which it is, with immediate 0 and with another. -/
theorem test_witness_branch_conditions :
    let s := ready [(1, 1), (2, 0xFFFFFFFF)] [] [.add 0 0 0] 0
    (s.readReg 1 = s.readReg 1 ∧ s.readReg 1 ≠ s.readReg 2) ∧
    (s32 (s.readReg 2) < s32 (s.readReg 1) ∧ s32 (s.readReg 1) ≥ s32 (s.readReg 2)) ∧
    (u32 (s.readReg 1) < u32 (s.readReg 2) ∧ u32 (s.readReg 2) ≥ u32 (s.readReg 1)) ∧ (0 : Word) = 0 ∧ (4 : Word) ≠ 0 := by
  decide

/-- The clauses of PcArithmeticWraps at the top of the address space: a pc of 2^32 - 4, and a taken branch past it. -/
theorem test_witness_PcArithmeticWraps :
    (nextOf (exec (.add 0 0 0) (ready [] [] [.add 0 0 0] 0xFFFFFFFC))).map (·.pc) = some 0 ∧
    (nextOf (exec (.beq 0 0 8) (ready [] [] [.add 0 0 0] 0xFFFFFFFC))).map (·.pc) = some 4 ∧
    (nextOf (exec (.beq 0 0 0) (ready [] [] [.add 0 0 0] 0xFFFFFFFC))).map (·.pc) = some 4 := by decide

/-- P7's branch: at pc 4 to the address -4. -/
def leaving : State := ready [(1, 1)] [] [.addi 1 0 1, .blt 0 1 (-8)] 4

theorem fetches_leaving : Fetches leaving (.blt 0 1 (-8)) :=
  ⟨by decide, recordFor (.blt 0 1 (-8)) 1, by decide, by decide⟩

theorem test_witness_NegativeTargetsEndTheRun : ∃ t, leaving.instructionCount ≤ Config.maxInstructions ∧
    Fetches leaving (.blt 0 1 (-8)) ∧ (Instr.blt 0 1 (-8)).op.recordType = .b ∧
    evaluate .blt (leaving.readReg 0) (leaving.readReg 1) = true ∧ u32 leaving.pc + s32 (-8) < 0 ∧ step leaving = .next t :=
  ⟨_, by decide, fetches_leaving, by decide, by decide, by decide, rfl⟩

theorem test_witness_StepRunsTheDecodedInstruction :
    u32 leaving.pc % 4 = 0 ∧ leaving.imem[u32 leaving.pc / 4]? = some (recordFor (.blt 0 1 (-8)) 1) ∧
    decode (recordFor (.blt 0 1 (-8)) 1).word = .ok (.blt 0 1 (-8)) := by decide

/-- The end of the program, and the greatest pc. -/
theorem test_witness_PcOutsideTheProgramHalts :
    4 * (ready [] [] [.add 0 0 0] 4).instructionCount ≤ u32 (ready [] [] [.add 0 0 0] 4).pc ∧
    4 * (ready [] [] [.add 0 0 0] 0xFFFFFFFF).instructionCount ≤ u32 (ready [] [] [.add 0 0 0] 0xFFFFFFFF).pc := by decide

theorem test_witness_MisalignedFetchIsAnExecutionError :
    u32 (ready [] [] [.add 0 0 0] 3).pc < 4 * (ready [] [] [.add 0 0 0] 3).instructionCount ∧
    u32 (ready [] [] [.add 0 0 0] 3).pc % 4 ≠ 0 := by decide

/-- A state whose one record holds a raw word. -/
def raw (w : RecordWord) : State := { ready [] [] [.add 0 0 0] 0 with imem := [⟨w, 0, []⟩] }

/-- Each alternative: bit 55, and a pair of type and op that is none of the 27. -/
theorem test_witness_IllFormedRecordIsAnExecutionError :
    (u32 (raw 0x0080000000000000).pc % 4 = 0 ∧
      (raw 0x0080000000000000).imem[u32 (raw 0x0080000000000000).pc / 4]? = some ⟨0x0080000000000000, 0, []⟩ ∧
      zeroField 0x0080000000000000 ≠ 0) ∧
    (u32 (raw 0x0010000000000000).pc % 4 = 0 ∧
      (raw 0x0010000000000000).imem[u32 (raw 0x0010000000000000).pc / 4]? = some ⟨0x0010000000000000, 0, []⟩ ∧
      ¬∃ o : Op, typeField 0x0010000000000000 = o.recordType.number ∧ opField 0x0010000000000000 = o.number) :=
  ⟨by decide, by decide, by decide, fun ⟨o, h⟩ => by revert h; cases o <;> decide⟩

theorem test_witness_ExecutedNamesItsInstruction : ∃ t, stepCall leaving = (.executed 1, t) := ⟨_, rfl⟩

/-- An outcome Halted, an Error and a Fault: none is Executed. -/
theorem test_witness_OtherOutcomesChangeNothing :
    (stepCall (ready [] [] [] 0)).1 = .halted ∧ (stepCall (raw 0x0080000000000000)).1 ≠ .halted ∧
    (stepCall (ready [] [] [.sw 0 0 64] 0)).1 = .fault (.storeOutOfRange 64) := by decide

theorem test_witness_FaultsComeFromAccessesAlone :
    (∃ f, step (ready [] [] [.lw 1 0 63] 0) = .fault f ∧ f = .misalignedData 63) ∧
    (∃ f, step (ready [] [] [.sw 0 1 2] 0) = .fault f ∧ f = .misalignedData 2) ∧
    (∃ f, step (ready [] [] [.sw 0 1 64] 0) = .fault f ∧ f = .storeOutOfRange 64) :=
  ⟨⟨_, rfl, by decide⟩, ⟨_, rfl, by decide⟩, ⟨_, rfl, by decide⟩⟩

/-! ### States that meet the invariant -/

/-- A program of well-formed instructions has every record in its place. -/
theorem program_okAt (is : List Instr) (h : ∀ i ∈ is, decode (encode i.recordForm) = .ok i.recordForm) (k : Nat)
    (r : Record) (hr : (program is)[k]? = some r) : r.okAt k := by
  simp only [program, List.getElem?_map, Option.map_eq_some_iff] at hr
  obtain ⟨⟨i, n⟩, hi, rfl⟩ := hr
  rw [List.getElem?_zipIdx, Option.map_eq_some_iff] at hi
  obtain ⟨j, hj, e⟩ := hi
  simp only [Nat.zero_add, Prod.mk.injEq] at e
  obtain ⟨rfl, rfl⟩ := e
  exact ⟨rfl, _, h j (List.mem_of_getElem? hj)⟩

/-- A straight program with an aligned branch in a ready machine. -/
def sound : State := ready [(1, 1)] [(8, 42)] [.addi 1 0 1, .bne 1 0 (-4), .lw 2 0 2, .beq 0 0 0] 0

theorem sound_records (k : Nat) (r : Record) (h : sound.imem[k]? = some r) : r.okAt k :=
  program_okAt [.addi 1 0 1, .bne 1 0 (-4), .lw 2 0 2, .beq 0 0 0] (by decide) k r h

/-- A ready state whose pc and status may be changed and which still meets the invariant. -/
theorem sound_inv (pc : Word) (status : Status) (h : status = .halted → 16 ≤ u32 pc) (hi : status ≠ .idle) :
    State.Inv { sound with pc := pc, status := status } where
  size := (by decide : SizeOk sound.dataBytes)
  slot0 := (by decide : sound.regs[0] = 0)
  memWf := (by decide : sound.mem.wf)
  memCells := (by decide : ∀ c ∈ sound.mem, c.1 % 4 = 0 ∧ c.1 < sound.dataBytes)
  count := (by decide : sound.instructionCount ≤ Config.maxInstructions)
  records := sound_records
  labelsOk := (by decide : ∀ l ∈ sound.labels, l.2 % 4 = 0 ∧ l.2 ≤ 4 * sound.instructionCount)
  halted := h
  idle := fun e => absurd e hi
  ready := fun _ => (by decide : 0 < sound.instructionCount)

theorem test_witness_HaltedStaysHalted :
    State.Inv { sound with pc := 16, status := .halted } ∧ ({ sound with pc := 16, status := .halted } : State).status = .halted :=
  ⟨sound_inv 16 .halted (fun _ => by decide) (by decide), rfl⟩

/-- Each row of the status table: Idle, Halted, Ready outside the program, and Ready at a self-branch, at another
instruction and at one that faults. -/
theorem test_witness_StepFollowsTheStatusTable :
    ((State.powerOn 64).Inv ∧ (State.powerOn 64).status = .idle) ∧
    State.Inv { sound with pc := 16, status := .halted } ∧
    (State.Inv { sound with pc := 16, status := .ready } ∧ 4 * sound.instructionCount ≤ u32 (16 : Word)) ∧
    (State.Inv { sound with pc := 12, status := .ready } ∧ u32 (12 : Word) < 4 * sound.instructionCount) ∧
    (State.Inv { sound with pc := 0, status := .ready } ∧ (stepCall { sound with pc := 0, status := .ready }).1 = .executed 0) ∧
    (State.Inv { sound with pc := 8, status := .ready } ∧
      (stepCall { sound with pc := 8, status := .ready }).1.stopsRun = true) :=
  ⟨⟨⟨by decide, by decide, by decide, by decide, by decide, by simp [State.powerOn], by decide, by decide, by decide, by decide⟩,
      rfl⟩,
    sound_inv 16 .halted (fun _ => by decide) (by decide),
    ⟨sound_inv 16 .ready (fun h => by cases h) (by decide), by decide⟩,
    ⟨sound_inv 12 .ready (fun h => by cases h) (by decide), by decide⟩,
    ⟨sound_inv 0 .ready (fun h => by cases h) (by decide), by decide⟩,
    ⟨sound_inv 8 .ready (fun h => by cases h) (by decide), by decide⟩⟩

/-- The two ways a run ends: off the end, and at the self-branch. -/
theorem test_witness_RunsEndInExactlyTwoWays :
    (∃ t, sound.instructionCount ≤ Config.maxInstructions ∧ sound.status ≠ .halted ∧
      step { sound with pc := 16 } = .next t ∧ t.ended) ∧
    (∃ t, step { sound with pc := 12 } = .next t ∧ t.ended) :=
  ⟨⟨_, by decide, by decide, rfl, rfl⟩, _, rfl, rfl⟩

theorem test_witness_ProgramChangesOnlyByLoad :
    (∃ t, step sound = .next t) ∧ (∃ e t, load "nop".toList sound = (.error e, t)) ∧
    ∃ rs ls, assemble "a:
add x0,x0,x0".toList = .ok (rs, ls) := ⟨⟨_, rfl⟩, ⟨_, _, rfl⟩, _, _, rfl⟩

/-- One instruction of each type. -/
theorem test_witness_EachTypeChangesOnlyItsOwn :
    (∃ t, exec (.add 1 1 1) sound = .next t) ∧ (∃ t, exec (.lw 1 0 8) sound = .next t) ∧
    (∃ t, exec (.sw 0 1 8) sound = .next t) ∧ (∃ t, exec (.beq 0 0 0) sound = .next t) :=
  ⟨⟨_, rfl⟩, ⟨_, rfl⟩, ⟨_, rfl⟩, ⟨_, rfl⟩⟩

theorem test_witness_TextAndLabelsNeverMatter :
    (sound.imem.map (fun r => { r with text := ['x'], address := 7 })).map (·.word) = sound.imem.map (·.word) := by decide

theorem test_witness_StepKeepsInv : ∃ t, sound.Inv ∧ step sound = .next t :=
  ⟨_, sound_inv 0 .ready (fun h => by cases h) (by decide), rfl⟩

theorem test_witness_ResetAndLoadGiveInv :
    sound.Inv ∧ ∃ t, SizeOk sound.dataBytes ∧ load "add x0,x0,x0".toList sound = (.ok 1, t) :=
  ⟨sound_inv 0 .ready (fun h => by cases h) (by decide), _, by decide, rfl⟩

theorem test_witness_ReachableStatesMeetInv : Reachable (stepCall (loaded "add x1,x0,x0").2.hostReset).2 :=
  .step (.reset (.load _ (.powerOn (by decide))))

theorem sound_branchesAligned : sound.branchesAligned := by
  have h : ∀ r ∈ sound.imem, (match decode r.word with
      | .ok i => decide (i.op.recordType ≠ .b ∨ u32 i.immOrZero % 4 = 0)
      | .error _ => true) = true := by
    decide
  intro r hr i hi hb
  have := h r hr
  rw [hi] at this
  exact (of_decide_eq_true this).resolve_left (fun hn => hn hb)

theorem test_witness_AlignedProgramsNeverErr :
    ∃ t, sound.Inv ∧ sound.branchesAligned ∧ u32 sound.pc % 4 = 0 ∧ step sound = .next t :=
  ⟨_, sound_inv 0 .ready (fun h => by cases h) (by decide), sound_branchesAligned, by decide, rfl⟩

theorem test_witness_FailedLoadChangesNothing : ∃ e t, load "nop".toList sound = (.error e, t) := ⟨_, _, rfl⟩

/-- A program and an empty one. -/
theorem test_witness_SuccessfulLoadInstallsAndResets :
    (∃ rs ls, assemble "a:\nadd x0,x0,x0".toList = .ok (rs, ls) ∧ rs ≠ []) ∧
    (∃ rs ls, assemble "# only a comment".toList = .ok (rs, ls) ∧ rs = []) :=
  ⟨⟨_, _, rfl, by decide⟩, _, _, rfl, rfl⟩

/-- A forward reference, a blank line, and labels at the start, in the middle and at the end. -/
theorem test_witness_AssemblerMakesOneRecordPerLine :
    ∃ rs, assemble "a:\nbeq x0,x0,end\n\nb :\nadd x0,x0,x0\nend:".toList =
        .ok (rs, [("a".toList, 0), ("b".toList, 4), ("end".toList, 8)]) ∧ rs.length = 2 :=
  ⟨_, rfl, rfl⟩

/-- The premise, and a line of each class that decodes: a store's value source comes first. -/
theorem test_witness_RecordsDecodeTheirLines :
    (∃ rs ls r, assemble "beq x0,x0,end\n\nend:".toList = .ok (rs, ls) ∧ rs[0]? = some r) ∧
    decodeLine [] 0 "SUB x1 x2,x3".toList = .ok (.sub 1 2 3) ∧ decodeLine [] 0 "xori a0, fp, 0b11".toList = .ok (.xori 10 8 3) ∧
    decodeLine [] 0 "lhu 7, 0xfF(t6)".toList = .ok (.lhu 7 31 255) ∧ decodeLine [] 0 "sh x5, -4(x6)".toList = .ok (.sh 6 5 (-4)) ∧
    decodeLine [("l".toList, 8)] 12 "bgeu x1, x31, l".toList = .ok (.bgeu 1 31 (-4)) :=
  ⟨⟨_, _, _, rfl, rfl⟩, by decide, by decide, by decide, by decide, by decide⟩

/-- A source with one label line and one instruction line meets the three conditions. -/
theorem test_witness_AssemblerAcceptsSoundSources :
    let source := "l:\nadd x1,x2,x3".toList
    (∀ (k : Nat) line name, (splitLines source)[k]? = some line → LabelLine line name → name ≠ [] ∧
      ∀ (j : Nat) other, (splitLines source)[j]? = some other → LabelLine other name → j = k) ∧
    (instructionLines source).length ≤ Config.maxInstructions ∧
    (∀ labels, (∀ name a, Labels.find labels name = some a ↔ LabelAt source name a) →
      ∀ (k : Nat) line, (instructionLines source)[k]? = some line → ∃ i, decodeLine labels (4 * k) (clean line) = .ok i) := by
  have hs : splitLines "l:\nadd x1,x2,x3".toList = ["l:".toList, "add x1,x2,x3".toList] := by decide
  have hl : ∀ (k : Nat) line name, ["l:".toList, "add x1,x2,x3".toList][k]? = some line → LabelLine line name →
      k = 0 ∧ name ≠ [] := by
    intro k line name h ⟨c, hc, hn⟩
    match k, h with
    | 0, h =>
      injection h with h
      subst h
      have : c ++ [':'] = ['l'] ++ [':'] := hc.symm.trans (by decide)
      rw [List.append_cancel_right this] at hn
      exact ⟨rfl, by rw [hn]; decide⟩
    | 1, h =>
      injection h with h
      subst h
      have := congrArg List.getLast? hc
      rw [List.getLast?_concat] at this
      exact absurd this (by decide)
    | k + 2, h => cases h
  have hi : instructionLines "l:\nadd x1,x2,x3".toList = ["add x1,x2,x3".toList] := by decide
  intro source
  simp only [source, hs, hi]
  refine ⟨fun k line name h hn => ⟨(hl k line name h hn).2, fun j other h' hn' => ?_⟩, by decide, fun labels _ k line h => ?_⟩
  · rw [(hl k line name h hn).1, (hl j other name h' hn').1]
  · match k, h with
    | 0, h => injection h with h; subst h; exact ⟨.add 1 2 3, rfl⟩
    | k + 1, h => cases h

/-- The four sides of the range: the least and the greatest literal, and a label before and after its use. -/
theorem test_witness_ImmediatesResolveExactly :
    immediateOperand [] 0 "-2147483648".toList = .ok 0x80000000 ∧ immediateOperand [] 0 "2147483647".toList = .ok 0x7FFFFFFF ∧
    immediateOperand [("a".toList, 8)] 12 "a".toList = .ok (-4) ∧ immediateOperand [("a".toList, 8)] 0 "a".toList = .ok 8 ∧
    immediateOperand [] 0 "2147483648".toList = .error (.badImmediate, "2147483648".toList) := by decide

/-- A run that halts, one that is cancelled at its second test and one that a fault stops. -/
theorem test_witness_RunIsASequenceOfSteps :
    (∃ t, Returns (fun _ => false) 0 { sound with pc := 12 } .halted t) ∧
    (∃ t, Returns (fun k => k = 1) 0 sound .cancelled t) ∧
    (∃ t, Returns (fun _ => false) 0 { sound with pc := 8 } (.stopped (.fault (.misalignedData 2))) t) :=
  ⟨⟨_, .goesOn (by decide) rfl (by decide) (.halted (by decide))⟩,
    ⟨_, .goesOn (by decide) (by decide) (by decide) (.cancelled (by decide) (by decide))⟩,
    ⟨_, .stopped (by decide) rfl (by decide)⟩⟩

end Sys2Proof.Tests
end

section
/-! PROOFS. The power-on state: its fields, and the invariant for every allowed N (00_scope.md R7, 10_state.md R38). -/

namespace Sys2Proof.Machine

/-! ## The fields of the power-on state -/

variable (n : Nat)

@[simp] theorem powerOn_regs : (State.powerOn n).regs = Vector.replicate 32 0 := rfl
@[simp] theorem powerOn_pc : (State.powerOn n).pc = 0 := rfl
@[simp] theorem powerOn_status : (State.powerOn n).status = .idle := rfl
@[simp] theorem powerOn_imem : (State.powerOn n).imem = [] := rfl
@[simp] theorem powerOn_labels : (State.powerOn n).labels = [] := rfl
@[simp] theorem powerOn_mem : (State.powerOn n).mem = [] := rfl
@[simp] theorem powerOn_dataBytes : (State.powerOn n).dataBytes = n := rfl
@[simp] theorem powerOn_instructionCount : (State.powerOn n).instructionCount = 0 := rfl

/-! ## The invariant at power-on -/

variable {n}

/-- With no program, no label and no listed cell, an allowed N is all the invariant asks of the power-on state. -/
theorem powerOn_inv (hn : SizeOk n) : (State.powerOn n).Inv where
  size := hn
  slot0 := by simp
  memWf := Memory.wf_nil
  memCells := by simp
  count := by simp
  records := by simp
  labelsOk := by simp
  halted := by simp
  idle := by simp
  ready := by simp

/-- Every value of the open constant gives an allowed N: N = 4 * (e + 1) with e < 2^29 (log 1). -/
theorem sizeOk_config_dataBytes : SizeOk Config.dataBytes := by
  have he : Config.extraWords.val < 536870912 := Config.extraWords.isLt
  unfold Config.dataBytes
  omega

/-- Settles O7: an allowed N is enough at power-on, and `State.reset` is the power-on state of one. -/
theorem powerOnMeetsInv : Obligations.PowerOnMeetsInv :=
  ⟨fun _ hn => powerOn_inv hn, powerOn_inv sizeOk_config_dataBytes⟩

end Sys2Proof.Machine
end

section
/-! PROOFS. What the operations on the state change and keep (10_state.md): the pc's arithmetic, what an instruction of each
type can do, and the frame of an instruction and of a step. -/

namespace Sys2Proof.Machine

variable {s t u : State} {i : Instr} {addr : Int} {v : Word}

/-! ## The pc stores its value modulo 2^32 (R27, D3) -/

theorem u32_setPc (s : State) (x : Int) : (u32 (s.setPc x).pc : Int) = x % 4294967296 := by
  rw [setPc_pc, u32, BitVec.toNat_ofInt]
  omega

theorem u32_advancePc (s : State) : u32 s.advancePc.pc = (u32 s.pc + 4) % 4294967296 := by
  have h : (u32 s.advancePc.pc : Int) = (u32 s.pc + 4) % 4294967296 := u32_setPc s _
  omega

theorem u32_haltAtEnd (s : State) : u32 s.haltAtEnd.pc = (4 * s.instructionCount) % 4294967296 := by
  have h : (u32 s.haltAtEnd.pc : Int) = (4 * s.instructionCount) % 4294967296 := u32_setPc s _
  omega

/-- Advancing the pc passes it on by 4 below the top of the address space. -/
theorem passesOn_advancePc (hpc : u.pc = s.pc) : PassesOn s u.advancePc := by
  intro hs
  rw [u32_advancePc, hpc, Nat.mod_eq_of_lt hs]

/-! ## What an instruction of each type can do when it completes -/

/-- A write of the Data Memory completes only at an aligned address in range, and replaces that one cell. -/
theorem memWrite_ok (h : s.memWrite addr v = .ok u) :
    (0 ≤ addr ∧ addr < s.dataBytes) ∧ addr % 4 = 0 ∧ u = { s with mem := s.mem.write addr.toNat v } := by
  rcases memWrite_cases s addr v with ⟨_, e⟩ | ⟨_, _, e⟩ | ⟨hr, h4, e⟩ <;> rw [e] at h
  · cases h
  · cases h
  · exact ⟨hr, h4, by injection h with h; exact h.symm⟩

/-- An instruction that is no store and no branch writes its destination and passes on. -/
theorem exec_next_of_register_type (h : exec i s = .next t) (hs : i.op.recordType ≠ .s) (hb : i.op.recordType ≠ .b) :
    ∃ v, t = (s.writeReg i.rdOrZero v).advancePc := by
  rcases exec_next_cases h with ⟨_, hv⟩ | ⟨e, _⟩ | ⟨e, _⟩
  · exact hv
  · exact absurd e hs
  · exact absurd e hb

/-- A store that completes replaces one cell and passes on. -/
theorem exec_next_of_store (h : exec i s = .next t) (hs : i.op.recordType = .s) :
    ∃ addr v u, s.memWrite addr v = .ok u ∧ t = u.advancePc := by
  rcases exec_next_cases h with ⟨e | e, _⟩ | ⟨_, hu⟩ | ⟨e, _⟩
  · exact absurd (hs.symm.trans e) (by decide)
  · exact absurd (hs.symm.trans e) (by decide)
  · exact ⟨_, _, hu⟩
  · exact absurd (hs.symm.trans e) (by decide)

/-- A branch falls through, halts at the end of the program, or goes to its target (44_branch.md R245). -/
theorem exec_next_of_branch (h : exec i s = .next t) (hb : i.op.recordType = .b) :
    (evaluate i.op (s.readReg i.rs1OrZero) (s.readReg i.rs2OrZero) = false ∧ t = s.advancePc) ∨
    (evaluate i.op (s.readReg i.rs1OrZero) (s.readReg i.rs2OrZero) = true ∧ i.immOrZero = 0 ∧ t = s.haltAtEnd) ∨
    (evaluate i.op (s.readReg i.rs1OrZero) (s.readReg i.rs2OrZero) = true ∧ i.immOrZero ≠ 0 ∧
      t = s.setPc (u32 s.pc + s32 i.immOrZero)) := by
  rcases exec_next_cases h with ⟨e | e, _⟩ | ⟨e, _⟩ | ⟨_, hc⟩
  · exact absurd (hb.symm.trans e) (by decide)
  · exact absurd (hb.symm.trans e) (by decide)
  · exact absurd (hb.symm.trans e) (by decide)
  · exact hc

/-- A branch that completes leaves the registers, the Data Memory and the program (44_branch.md R254). -/
theorem exec_branch_frame (h : exec i s = .next t) (hb : i.op.recordType = .b) :
    t.regs = s.regs ∧ t.mem = s.mem ∧ SameProgram s t := by
  rcases exec_next_of_branch h hb with ⟨_, rfl⟩ | ⟨_, _, rfl⟩ | ⟨_, _, rfl⟩ <;> exact ⟨rfl, rfl, rfl, rfl, rfl⟩

/-- A store that completes leaves the registers and the program. -/
theorem exec_store_frame (h : exec i s = .next t) (hs : i.op.recordType = .s) : t.regs = s.regs ∧ SameProgram s t := by
  obtain ⟨_, _, u, hu, rfl⟩ := exec_next_of_store h hs
  obtain ⟨_, _, rfl⟩ := memWrite_ok hu
  exact ⟨rfl, rfl, rfl, rfl⟩

/-! ## What an instruction leaves unchanged -/

theorem exec_sameProgram (h : exec i s = .next t) : SameProgram s t := by
  by_cases hs : i.op.recordType = .s
  · exact (exec_store_frame h hs).2
  by_cases hb : i.op.recordType = .b
  · exact (exec_branch_frame h hb).2.2
  obtain ⟨v, rfl⟩ := exec_next_of_register_type h hs hb
  exact ⟨writeReg_imem s _ v, writeReg_labels s _ v, writeReg_dataBytes s _ v⟩

/-- Stores and branches leave the whole Register File (R25). -/
theorem exec_regs_of_store_or_branch (h : exec i s = .next t) (hi : i.op.recordType = .s ∨ i.op.recordType = .b) :
    t.regs = s.regs := by
  rcases hi with hs | hb
  · exact (exec_store_frame h hs).1
  · exact (exec_branch_frame h hb).1

/-- Of the Register File, an instruction that completes leaves it whole or writes its destination. -/
theorem exec_regs_cases (h : exec i s = .next t) : t.regs = s.regs ∨ ∃ v, t.regs = (s.writeReg i.rdOrZero v).regs := by
  by_cases hi : i.op.recordType = .s ∨ i.op.recordType = .b
  · exact .inl (exec_regs_of_store_or_branch h hi)
  · obtain ⟨hs, hb⟩ := not_or.mp hi
    obtain ⟨v, rfl⟩ := exec_next_of_register_type h hs hb
    exact .inr ⟨v, rfl⟩

/-- Only the destination may change among the registers (R25). -/
theorem exec_sameRegsBut (h : exec i s = .next t) : SameRegsBut i.rdOrZero s t := by
  intro q hq
  rcases exec_regs_cases h with e | ⟨v, e⟩
  · rw [State.readReg, State.readReg, e]
  · rw [← readReg_writeReg_other s i.rdOrZero q v hq, State.readReg, State.readReg, e]

/-- No instruction reaches slot 0 (R23). -/
theorem exec_slot0 (h : exec i s = .next t) : t.regs[0] = s.regs[0] := by
  rcases exec_regs_cases h with e | ⟨v, e⟩
  · rw [e]
  · rw [e, writeReg_slot0]

/-- Only a store changes the Data Memory (R36). -/
theorem exec_mem_of_not_store (h : exec i s = .next t) (hs : i.op.recordType ≠ .s) : t.mem = s.mem := by
  by_cases hb : i.op.recordType = .b
  · exact (exec_branch_frame h hb).2.1
  · obtain ⟨v, rfl⟩ := exec_next_of_register_type h hs hb
    exact writeReg_mem s _ v

/-- Only a branch redirects the pc or changes the status: any other instruction advances the pc of a state with the old
pc and status (R28, 44_branch.md R254). -/
theorem exec_advances_of_not_branch (h : exec i s = .next t) (hb : i.op.recordType ≠ .b) :
    ∃ u : State, u.pc = s.pc ∧ u.status = s.status ∧ t = u.advancePc := by
  by_cases hs : i.op.recordType = .s
  · obtain ⟨_, _, u, hu, rfl⟩ := exec_next_of_store h hs
    obtain ⟨_, _, e⟩ := memWrite_ok hu
    exact ⟨u, by rw [e], by rw [e], rfl⟩
  · obtain ⟨v, rfl⟩ := exec_next_of_register_type h hs hb
    exact ⟨_, writeReg_pc s _ v, writeReg_status s _ v, rfl⟩

/-! ## What a step leaves unchanged -/

theorem step_sameProgram (h : step s = .next t) : SameProgram s t := by
  rcases step_next_cases h with ⟨_, rfl⟩ | ⟨_, _, _, _, _, _, hx⟩
  · exact ⟨rfl, rfl, rfl⟩
  · exact exec_sameProgram hx

theorem step_slot0 (h : step s = .next t) : t.regs[0] = s.regs[0] := by
  rcases step_next_cases h with ⟨_, rfl⟩ | ⟨_, _, _, _, _, _, hx⟩
  · rfl
  · exact exec_slot0 hx

/-! ## The statements about one instruction -/

/-- Settles O32: an instruction that is no taken branch advances the pc, and a taken branch goes to its target or to the
end of the program. -/
theorem pcArithmeticWraps : Obligations.PcArithmeticWraps := by
  intro i s t h
  by_cases hb : i.op.recordType = .b
  · rcases exec_next_of_branch h hb with ⟨he, rfl⟩ | ⟨he, hi, rfl⟩ | ⟨he, hi, rfl⟩
    · simpa [hb, he] using u32_advancePc s
    · simpa [hb, he, hi] using u32_haltAtEnd s
    · exact ⟨fun hn => absurd he (hn.resolve_left (not_not_intro hb)), fun _ _ _ => u32_setPc s _,
        fun _ _ h0 => absurd h0 hi⟩
  · obtain ⟨u, hpc, _, rfl⟩ := exec_advances_of_not_branch h hb
    simpa [hb, hpc] using u32_advancePc u

/-- Settles O46: each clause is the frame of one kind of instruction. -/
theorem eachTypeChangesOnlyItsOwn : Obligations.EachTypeChangesOnlyItsOwn := by
  intro i s t h
  refine ⟨exec_sameRegsBut h, exec_regs_of_store_or_branch h, exec_mem_of_not_store h, fun hb => ?_, exec_sameProgram h⟩
  obtain ⟨u, hpc, hstatus, rfl⟩ := exec_advances_of_not_branch h hb
  exact ⟨passesOn_advancePc hpc, hstatus⟩

end Sys2Proof.Machine
end

section
/-! PROOFS. Every step keeps the invariant of `State.Inv`: one lemma per operation on the state (10_state.md). -/

namespace Sys2Proof.Machine

variable {s t u : State} {i : Instr} {addr : Int} {v : Word}

/-! ## The operations on the state keep the invariant -/

theorem writeReg_inv (hs : s.Inv) (r : Reg) (v : Word) : (s.writeReg r v).Inv where
  size := by simpa using hs.size
  slot0 := (writeReg_slot0 s r v).trans hs.slot0
  memWf := by simpa using hs.memWf
  memCells := by simpa using hs.memCells
  count := by simpa using hs.count
  records := by simpa using hs.records
  labelsOk := by simpa using hs.labelsOk
  halted := by simpa using hs.halted
  idle := by simpa using hs.idle
  ready := by simpa using hs.ready

/-- A store that completes writes one of the N/4 cells, and a write keeps the canonical form. -/
theorem memWrite_inv (hs : s.Inv) (h : s.memWrite addr v = .ok u) : u.Inv := by
  obtain ⟨hr, h4, rfl⟩ := memWrite_ok h
  have hcell : addr.toNat % 4 = 0 ∧ addr.toNat < s.dataBytes := by omega
  exact { hs with
    memWf := Memory.write_wf hs.memWf
    memCells := fun c hc => (Memory.mem_write hc).elim (fun e => e ▸ hcell) (hs.memCells c) }

/-- While the engine is Ready the invariant says nothing about the pc. -/
theorem setPc_inv (hs : s.Inv) (hready : s.status = .ready) (x : Int) : (s.setPc x).Inv :=
  { hs with
    halted := fun e => by simp [hready] at e
    idle := fun e => by simp [hready] at e }

theorem advancePc_inv (hs : s.Inv) (hready : s.status = .ready) : s.advancePc.Inv := setPc_inv hs hready _

/-- The transition to Halted, outside the valid range of the pc (R30). -/
theorem halt_inv (hs : s.Inv) (hpc : 4 * s.instructionCount ≤ u32 s.pc) : s.halt.Inv :=
  { hs with
    halted := fun _ => hpc
    idle := fun e => by simp at e
    ready := fun e => by simp at e }

/-- The self-loop halt leaves the pc at the end of the program, which the bound of D2 keeps below 2^32. -/
theorem haltAtEnd_inv (hs : s.Inv) (hready : s.status = .ready) : s.haltAtEnd.Inv := by
  refine halt_inv (setPc_inv hs hready _) ?_
  have hcount : s.instructionCount ≤ 536870912 := hs.count
  have hpc := u32_haltAtEnd s
  rw [Nat.mod_eq_of_lt (by omega)] at hpc
  exact hpc.ge

/-! ## An instruction and a step keep the invariant -/

/-- Inside the valid range the engine is Ready: a Halted or Idle one stands outside it. -/
theorem ready_of_pc_inside (hs : s.Inv) (hpc : u32 s.pc < 4 * s.instructionCount) : s.status = .ready := by
  cases e : s.status with
  | idle => have := (hs.idle e).1; omega
  | ready => rfl
  | halted => have := hs.halted e; omega

theorem exec_inv (hs : s.Inv) (hready : s.status = .ready) (h : exec i s = .next t) : t.Inv := by
  rcases exec_next_cases h with ⟨_, v, rfl⟩ | ⟨_, u, hu, rfl⟩ | ⟨_, ⟨_, rfl⟩ | ⟨_, _, rfl⟩ | ⟨_, _, rfl⟩⟩
  · exact advancePc_inv (writeReg_inv hs _ v) (by simpa using hready)
  · have hstatus : u.status = s.status := by rw [(memWrite_ok hu).2.2]
    exact advancePc_inv (memWrite_inv hs hu) (hstatus.trans hready)
  · exact advancePc_inv hs hready
  · exact haltAtEnd_inv hs hready
  · exact setPc_inv hs hready _

/-- Settles O49: outside the valid range a step only halts, and inside it the engine is Ready and runs an instruction. -/
theorem stepKeepsInv : Obligations.StepKeepsInv := by
  intro s t hs h
  rcases step_next_cases h with ⟨hpc, rfl⟩ | ⟨hpc, _, _, _, _, _, hx⟩
  · exact halt_inv hs hpc
  · exact exec_inv hs (ready_of_pc_inside hs hpc) hx

end Sys2Proof.Machine
end

section
/-! PROOFS. An instruction's packed word decodes to its record form (30_encoding.md R89, R93, R94). -/

namespace Sys2Proof

variable {w : RecordWord} {o : Op} (i : Instr)

/-- A word with the zero bits, the type number and the op number of a form decodes to that form (R94). -/
theorem decode_of_fields (hz : zeroField w = 0) (ht : typeField w = o.recordType.number) (ho : opField w = o.number) :
    decode w = .ok (o.withFields w) := by
  simp [decode, hz, ht, ho, RecordType.ofNumber?_number, Op.ofNumber?_number]

@[simp] theorem zeroField_encode : zeroField (encode i) = 0 := zeroField_packFields ..
@[simp] theorem typeField_encode : typeField (encode i) = i.op.recordType.number := typeField_packFields ..
@[simp] theorem opField_encode : opField (encode i) = i.op.number := opField_packFields ..
@[simp] theorem rs2Field_encode : rs2Field (encode i) = i.rs2OrZero := rs2Field_packFields ..
@[simp] theorem rs1Field_encode : rs1Field (encode i) = i.rs1OrZero := rs1Field_packFields ..
@[simp] theorem rdField_encode : rdField (encode i) = i.rdOrZero := rdField_packFields ..
@[simp] theorem immField_encode : immField (encode i) = i.immOrZero := immField_packFields ..

/-- Every field that the record form reads stands in the instruction's word. -/
theorem withFields_encode : i.op.withFields (encode i) = i.recordForm := by
  cases i <;>
    simp only [Instr.op, Op.withFields, rs2Field_encode, rs1Field_encode, rdField_encode, immField_encode] <;> rfl

/-- The decoder reads an instruction's word back, normalised to its record form. -/
theorem decode_encode : decode (encode i) = .ok i.recordForm := by
  rw [decode_of_fields (zeroField_encode i) (typeField_encode i) (opField_encode i), withFields_encode]

end Sys2Proof
end

section
/-! PROOFS. The program comes from `load` alone, and every reachable state meets the invariant: what the assembler makes, and
what the host's operations leave (10_state.md R34, R38, 45_engine.md R275 to R278). -/

namespace Sys2Proof.Machine

variable {s t : State} {source : Text} {imem : List Record} {labels : Labels}

/-! ## What a successful assembly makes -/

/-- A successful assembly is two successful passes, with the end of the program within its bound (R159). -/
theorem assemble_ok (h : assemble source = .ok (imem, labels)) :
    ∃ a, passOne ((splitLines source).zipIdx 1) 0 [] = .ok (labels, a) ∧ a ≤ 4 * Config.maxInstructions ∧
      passTwo labels ((splitLines source).zipIdx 1) 0 = .ok imem := by
  unfold assemble at h
  dsimp only at h
  split at h
  · cases h
  · rename_i ls a h1
    split at h
    · cases h
    · rename_i ha
      split at h
      · cases h
      · rename_i rs h2
        injection h with h
        obtain ⟨rfl, rfl⟩ := Prod.mk.inj h
        exact ⟨a, h1, not_lt.mp ha, h2⟩

/-- The program is within its bound, and every label's address is a multiple of 4 inside the program or at its end: pass 1
counts the lines that pass 2 makes records of (40_assembler.md R124, R126). -/
theorem assemble_count_and_labels (h : assemble source = .ok (imem, labels)) :
    imem.length ≤ Config.maxInstructions ∧ ∀ l ∈ labels, l.2 % 4 = 0 ∧ l.2 ≤ 4 * imem.length := by
  obtain ⟨a, h1, ha, h2⟩ := assemble_ok h
  obtain ⟨hend, hlabels⟩ := passOne_spec h1 (by simp) rfl
  have hlen : imem.length = (((splitLines source).zipIdx 1).filter (fun p => isInstructionLine p.1)).length := by
    rw [← List.length_map (f := (·.text)), (passTwo_spec h2).1, List.filter_map, List.length_map]
    rfl
  rw [← hlen, Nat.zero_add] at hend
  subst hend
  exact ⟨Nat.le_of_mul_le_mul_left ha (by decide), hlabels⟩

/-- Every record stands in its place and holds a record form (30_encoding.md R82, R95). -/
theorem assemble_records (h : assemble source = .ok (imem, labels)) (k : Nat) (r : Record) (hr : imem[k]? = some r) :
    r.okAt k := by
  obtain ⟨_, _, _, h2⟩ := assemble_ok h
  obtain ⟨haddr, i, _, hword⟩ := (passTwo_spec h2).2 k r hr
  exact ⟨by rw [haddr, Nat.zero_add], _, by rw [hword, decode_encode]⟩

/-! ## The host's operations -/

@[simp] theorem hostReset_regs (s : State) : s.hostReset.regs = Vector.replicate 32 0 := rfl
@[simp] theorem hostReset_pc (s : State) : s.hostReset.pc = 0 := rfl
@[simp] theorem hostReset_status (s : State) :
    s.hostReset.status = if 0 < s.instructionCount then .ready else .idle := rfl
@[simp] theorem hostReset_imem (s : State) : s.hostReset.imem = s.imem := rfl
@[simp] theorem hostReset_labels (s : State) : s.hostReset.labels = s.labels := rfl
@[simp] theorem hostReset_mem (s : State) : s.hostReset.mem = [] := rfl
@[simp] theorem hostReset_dataBytes (s : State) : s.hostReset.dataBytes = s.dataBytes := rfl
@[simp] theorem hostReset_instructionCount (s : State) : s.hostReset.instructionCount = s.instructionCount := rfl

theorem hostReset_sameProgram (s : State) : SameProgram s s.hostReset := ⟨rfl, rfl, rfl⟩

/-- A failed load returns the ParseError and changes nothing (45_engine.md R278). -/
theorem load_of_error {e : ParseError} (h : assemble source = .error e) (s : State) : load source s = (.error e, s) := by
  rw [load, h]

/-- A successful load puts the program and the labels in place and resets (45_engine.md R276, R277). -/
theorem load_of_ok (h : assemble source = .ok (imem, labels)) (s : State) :
    load source s = (.ok imem.length, State.hostReset { s with imem := imem, labels := labels }) := by
  rw [load, h]

/-- A step call leaves the state as it was or the one that its step answers (45_engine.md R261, R269). -/
theorem stepCall_state (s : State) : (stepCall s).2 = s ∨ step s = .next (stepCall s).2 := by
  unfold stepCall
  split
  · exact .inr ‹_›
  all_goals exact .inl rfl

/-- Settles O45: neither a step nor a reset writes the program, a failed load leaves the state, and a successful one
installs what the assembler made. -/
theorem programChangesOnlyByLoad : Obligations.ProgramChangesOnlyByLoad := by
  refine ⟨fun _ _ => step_sameProgram, hostReset_sameProgram, fun source s t e h => ?_, fun source s imem labels h => ?_⟩
  · cases ha : assemble source with
    | error e' =>
      rw [load_of_error ha] at h
      obtain ⟨_, rfl⟩ := Prod.mk.inj h
      exact ⟨rfl, rfl, rfl⟩
    | ok p => rw [load_of_ok ha] at h; cases h
  · rw [load_of_ok h]
    exact ⟨rfl, rfl⟩

/-! ## The invariant of every reachable state -/

/-- A reset asks of the invariant only the clauses about N, the program and the labels: it makes the others. -/
theorem hostReset_inv_of_program (hn : SizeOk s.dataBytes) (hcount : s.instructionCount ≤ Config.maxInstructions)
    (hrecords : ∀ (k : Nat) (r : Record), s.imem[k]? = some r → r.okAt k)
    (hlabels : ∀ l ∈ s.labels, l.2 % 4 = 0 ∧ l.2 ≤ 4 * s.instructionCount) : s.hostReset.Inv where
  size := hn
  slot0 := by simp
  memWf := Memory.wf_nil
  memCells := by simp
  count := hcount
  records := hrecords
  labelsOk := hlabels
  halted := by rw [hostReset_status]; split <;> simp
  idle := by simp
  ready := by simp [Nat.pos_iff_ne_zero]

theorem hostReset_inv (hs : s.Inv) : s.hostReset.Inv :=
  hostReset_inv_of_program hs.size hs.count hs.records hs.labelsOk

/-- A successful load establishes the invariant from any state with an allowed N. -/
theorem load_ok_inv (h : assemble source = .ok (imem, labels)) (hn : SizeOk s.dataBytes) : (load source s).2.Inv := by
  obtain ⟨hcount, hlabels⟩ := assemble_count_and_labels h
  rw [load_of_ok h]
  exact hostReset_inv_of_program hn hcount (assemble_records h) hlabels

theorem load_inv (hs : s.Inv) (source : Text) : (load source s).2.Inv := by
  cases h : assemble source with
  | error e => rw [load_of_error h]; exact hs
  | ok p => exact load_ok_inv h hs.size

theorem stepCall_inv (hs : s.Inv) : (stepCall s).2.Inv := by
  rcases stepCall_state s with e | h
  · rw [e]; exact hs
  · exact stepKeepsInv _ _ hs h

/-- Settles O51, by induction on how the state is reached: power-on meets the invariant, and every host operation keeps it. -/
theorem reachableStatesMeetInv : Obligations.ReachableStatesMeetInv := by
  intro s hs
  induction hs with
  | powerOn hn => exact powerOn_inv hn
  | load source _ ih => exact load_inv ih source
  | reset _ ih => exact hostReset_inv ih
  | step _ ih => exact stepCall_inv ih

/-! ## Register 0 and the power-on state -/

/-- Settles O9: register 0 discards its writes, no step reaches slot 0, and the invariant holds it at 0. -/
theorem registerZeroNeverHoldsAValue : Obligations.RegisterZeroNeverHoldsAValue := by
  refine ⟨fun s i v hi => ⟨?_, fun q hq => readReg_writeReg_other s i q v hq⟩, fun s v => writeReg_zero s v,
    fun s t h0 h => (step_slot0 h).trans h0, fun s hs => ⟨(reachableStatesMeetInv s hs).slot0, readReg_zero s⟩⟩
  rw [readReg_writeReg_same, if_neg hi]

/-- Every register of a Register File of zeros reads as 0. -/
theorem readReg_of_regs_zero (h : s.regs = Vector.replicate 32 0) (r : Reg) : s.readReg r = 0 := by
  simp [State.readReg, h]

/-- Settles O6: a Register File of zeros reads 0 everywhere, and so does a memory that lists no cell (10_state.md R38). -/
theorem powerOnIsEmptyAndZero : Obligations.PowerOnIsEmptyAndZero :=
  fun n => ⟨readReg_of_regs_zero (powerOn_regs n), fun _ => rfl, rfl, rfl, rfl, rfl, rfl, rfl⟩

end Sys2Proof.Machine
end

section
/-! PROOFS. All a word that decodes can be (30_encoding.md R94). -/

namespace Sys2Proof

variable {w : RecordWord} {i : Instr}

/-- A word that decodes has its zero bits clear, the number of an op and of that op's type, and reads as that op's form. -/
theorem decode_ok (h : decode w = .ok i) :
    ∃ o : Op, zeroField w = 0 ∧ RecordType.ofNumber? (typeField w) = some o.recordType ∧
      Op.ofNumber? (opField w) = some o ∧ i = o.withFields w := by
  unfold decode at h
  split at h
  · cases h
  · rename_i hz
    split at h
    · cases h
    · rename_i ty ht
      split at h
      · cases h
      · rename_i o ho
        split at h
        · rename_i hty
          injection h with h
          exact ⟨o, not_not.mp hz, hty ▸ ht, ho, h.symm⟩
        · cases h

/-- The decoder answers no alias (R89): the only type S instruction it answers is `sw`. -/
theorem eq_sw_of_decode (h : decode w = .ok i) (hs : i.op.recordType = .s) :
    ∃ rs1 rs2 imm, i = .sw rs1 rs2 imm := by
  obtain ⟨o, -, -, -, rfl⟩ := decode_ok h
  cases o
  case sw => exact ⟨_, _, _, rfl⟩
  all_goals cases hs

end Sys2Proof
end

section
/-! PROOFS. The Data Memory: what the loads and stores answer (20_memory.md R52, R53, R59), that a run's cells hold its
latest stores (R61), and the inspector (R66). -/

namespace Sys2Proof.Machine

variable {s t : State} {rs1 rs2 : Reg} {imm : Word}

/-! ## The mnemonics of a class run one shared execution (43_load_store.md R224, R227) -/

theorem exec_loadMnemonic {m : Reg → Reg → Word → Instr} (hm : m ∈ loadMnemonics) (rd rs1 : Reg) (imm : Word)
    (s : State) : exec (m rd rs1 imm) s = execLoad rd rs1 imm s := by
  simp only [loadMnemonics, List.mem_cons, List.not_mem_nil, or_false] at hm
  rcases hm with rfl | rfl | rfl | rfl | rfl | rfl <;> rfl

theorem exec_storeMnemonic {m : Reg → Reg → Word → Instr} (hm : m ∈ storeMnemonics) (rs1 rs2 : Reg) (imm : Word)
    (s : State) : exec (m rs1 rs2 imm) s = execStore rs1 rs2 imm s := by
  simp only [storeMnemonics, List.mem_cons, List.not_mem_nil, or_false] at hm
  rcases hm with rfl | rfl | rfl <;> rfl

/-! ## All a load and a store can answer -/

/-- A load loads 0 out of range, faults at a misaligned address in range, and loads the cell at an aligned one. -/
theorem execLoad_cases (rd rs1 : Reg) (imm : Word) (s : State) :
    (¬(0 ≤ s.effectiveAddress rs1 imm ∧ s.effectiveAddress rs1 imm < s.dataBytes) ∧
      execLoad rd rs1 imm s = .next (s.writeReg rd 0).advancePc) ∨
    ((0 ≤ s.effectiveAddress rs1 imm ∧ s.effectiveAddress rs1 imm < s.dataBytes) ∧
      s.effectiveAddress rs1 imm % 4 ≠ 0 ∧
      execLoad rd rs1 imm s = .fault (.misalignedData (s.effectiveAddress rs1 imm))) ∨
    ((0 ≤ s.effectiveAddress rs1 imm ∧ s.effectiveAddress rs1 imm < s.dataBytes) ∧
      s.effectiveAddress rs1 imm % 4 = 0 ∧
      execLoad rd rs1 imm s = .next (s.writeReg rd (s.mem.read (s.effectiveAddress rs1 imm).toNat)).advancePc) := by
  rcases memRead_cases s (s.effectiveAddress rs1 imm) with ⟨hr, e⟩ | ⟨hr, h4, e⟩ | ⟨hr, h4, e⟩
  · exact .inl ⟨hr, by rw [execLoad, e]⟩
  · exact .inr (.inl ⟨hr, h4, by rw [execLoad, e]⟩)
  · exact .inr (.inr ⟨hr, h4, by rw [execLoad, e]⟩)

/-- A load at an aligned address in range loads the cell there (43_load_store.md R222). -/
theorem execLoad_of_aligned (rd : Reg) (h0 : 0 ≤ s.effectiveAddress rs1 imm)
    (hN : s.effectiveAddress rs1 imm < s.dataBytes) (h4 : s.effectiveAddress rs1 imm % 4 = 0) :
    execLoad rd rs1 imm s = .next (s.writeReg rd (s.mem.read (s.effectiveAddress rs1 imm).toNat)).advancePc := by
  rcases execLoad_cases rd rs1 imm s with ⟨hr, _⟩ | ⟨_, h, _⟩ | ⟨_, _, e⟩
  · exact absurd ⟨h0, hN⟩ hr
  · exact absurd h4 h
  · exact e

/-- A store faults out of range, then at a misaligned address, and replaces the cell at an aligned one. -/
theorem execStore_cases (rs1 rs2 : Reg) (imm : Word) (s : State) :
    (¬(0 ≤ s.effectiveAddress rs1 imm ∧ s.effectiveAddress rs1 imm < s.dataBytes) ∧
      execStore rs1 rs2 imm s = .fault (.storeOutOfRange (s.effectiveAddress rs1 imm))) ∨
    ((0 ≤ s.effectiveAddress rs1 imm ∧ s.effectiveAddress rs1 imm < s.dataBytes) ∧
      s.effectiveAddress rs1 imm % 4 ≠ 0 ∧
      execStore rs1 rs2 imm s = .fault (.misalignedData (s.effectiveAddress rs1 imm))) ∨
    ((0 ≤ s.effectiveAddress rs1 imm ∧ s.effectiveAddress rs1 imm < s.dataBytes) ∧
      s.effectiveAddress rs1 imm % 4 = 0 ∧
      execStore rs1 rs2 imm s = .next (State.advancePc
        { s with mem := s.mem.write (s.effectiveAddress rs1 imm).toNat (s.readReg rs2) })) := by
  rcases memWrite_cases s (s.effectiveAddress rs1 imm) (s.readReg rs2) with ⟨hr, e⟩ | ⟨hr, h4, e⟩ | ⟨hr, h4, e⟩
  · exact .inl ⟨hr, by rw [execStore, e]⟩
  · exact .inr (.inl ⟨hr, h4, by rw [execStore, e]⟩)
  · exact .inr (.inr ⟨hr, h4, by rw [execStore, e]⟩)

/-- Settles O24: of the three answers of a load, only the fault has a misaligned address in range. -/
theorem loadsMisalignedFault : Obligations.LoadsMisalignedFault := by
  intro m hm rd rs1 imm s h0 hN h4
  rw [exec_loadMnemonic hm]
  rcases execLoad_cases rd rs1 imm s with ⟨hr, _⟩ | ⟨_, _, e⟩ | ⟨_, h, _⟩
  · exact absurd ⟨h0, hN⟩ hr
  · exact e
  · exact absurd h h4

/-- Settles O26: the three answers of a store, told apart by the range and then by the alignment. -/
theorem storesStopOutsideTheirCells : Obligations.StoresStopOutsideTheirCells := by
  intro m hm rs1 rs2 imm s
  rw [exec_storeMnemonic hm]
  rcases execStore_cases rs1 rs2 imm s with ⟨hr, e⟩ | ⟨⟨h0, hN⟩, _, e⟩ | ⟨⟨h0, hN⟩, h4, _⟩
  · exact ⟨fun _ => e, fun h0 hN => absurd ⟨h0, hN⟩ hr⟩
  · exact ⟨fun h => (h.elim h0.not_gt hN.not_ge).elim, fun _ _ _ => e⟩
  · exact ⟨fun h => (h.elim h0.not_gt hN.not_ge).elim, fun _ _ h => absurd h4 h⟩

/-! ## The stores of a run -/

/-- At a pc in the valid range and aligned, the fetch finds the record there (45_engine.md R263). -/
theorem fetch_of_record {r : Record} (hpc : u32 s.pc < 4 * s.instructionCount) (h4 : u32 s.pc % 4 = 0)
    (hr : s.imem[u32 s.pc / 4]? = some r) : s.fetch = .record r := by
  rcases fetch_cases s with ⟨h, _⟩ | ⟨_, h, _⟩ | ⟨_, _, r', hr', e⟩
  · omega
  · exact absurd h4 h
  · rw [e, Option.some.inj (hr'.symm.trans hr)]

theorem pendingStore_of_outside (hpc : 4 * s.instructionCount ≤ u32 s.pc) : pendingStore s = none := by
  rcases fetch_cases s with ⟨_, e⟩ | ⟨h, _⟩ | ⟨h, _⟩
  · rw [pendingStore, e]
  all_goals omega

theorem pendingStore_of_sw {r : Record} (hf : s.fetch = .record r) (hd : decode r.word = .ok (.sw rs1 rs2 imm)) :
    pendingStore s = some ((s.effectiveAddress rs1 imm).toNat, s.readReg rs2) := by
  simp only [pendingStore, hf, hd]

theorem pendingStore_of_not_store {r : Record} {i : Instr} (hf : s.fetch = .record r) (hd : decode r.word = .ok i)
    (hs : i.op.recordType ≠ .s) : pendingStore s = none := by
  simp only [pendingStore, hf, hd]
  cases i
  case sw => exact absurd rfl hs
  all_goals rfl

/-- What a step does to the Data Memory is its pending store: nothing, or the replacement of that one cell. -/
theorem step_mem_cases (h : step s = .next t) :
    (pendingStore s = none ∧ t.mem = s.mem) ∨
    ∃ b v, pendingStore s = some (b, v) ∧ t.mem = s.mem.write b v := by
  rcases step_next_cases h with ⟨hpc, rfl⟩ | ⟨hpc, h4, r, i, hr, hd, hx⟩
  · exact .inl ⟨pendingStore_of_outside hpc, rfl⟩
  have hf := fetch_of_record hpc h4 hr
  by_cases hs : i.op.recordType = .s
  · obtain ⟨rs1, rs2, imm, rfl⟩ := eq_sw_of_decode hd hs
    rcases execStore_cases rs1 rs2 imm s with ⟨_, e⟩ | ⟨_, _, e⟩ | ⟨_, _, e⟩
    · cases e.symm.trans hx
    · cases e.symm.trans hx
    · cases e.symm.trans hx
      exact .inr ⟨_, _, pendingStore_of_sw hf hd, rfl⟩
  · exact .inl ⟨pendingStore_of_not_store hf hd hs, exec_mem_of_not_store hx hs⟩

theorem step_mem_wf (hm : s.mem.wf) (h : step s = .next t) : t.mem.wf := by
  rcases step_mem_cases h with ⟨_, e⟩ | ⟨_, _, _, e⟩ <;> rw [e]
  · exact hm
  · exact Memory.write_wf hm

/-- The stores of a run that goes on are those of its first part, then those of the rest. -/
theorem latestStore_append (log more : List (Nat × Word)) (a : Nat) (init : Word) :
    latestStore (log ++ more) a init = latestStore more a (latestStore log a init) := List.foldl_append

/-- After a step each cell holds the word of the step's store to it, or what it held before (20_memory.md R61). -/
theorem step_read_mem (hm : s.mem.wf) (h : step s = .next t) (a : Nat) :
    t.mem.read a = latestStore (pendingStore s).toList a (s.mem.read a) := by
  rcases step_mem_cases h with ⟨hp, e⟩ | ⟨b, v, hp, e⟩ <;> rw [hp, e]
  · rfl
  · rw [Memory.read_write hm]
    exact if_congr eq_comm rfl rfl

/-- A run keeps the canonical form, and its latest stores are what the cells hold. -/
theorem storeRun_mem {log : List (Nat × Word)} (hm : s.mem.wf) (h : StoreRun s log t) :
    t.mem.wf ∧ ∀ a, t.mem.read a = latestStore log a (s.mem.read a) := by
  induction h with
  | start => exact ⟨hm, fun _ => rfl⟩
  | step _ hstep ih =>
    obtain ⟨hwf, hread⟩ := ih
    exact ⟨step_mem_wf hwf hstep, fun a => by rw [step_read_mem hwf hstep, hread, latestStore_append]⟩

/-- Settles O28, by induction on the run: a step changes the cells by its pending store, and a load reads its cell. -/
theorem cellsHoldTheLatestStore : Obligations.CellsHoldTheLatestStore := by
  intro s log t hm h
  have hread := (storeRun_mem hm h).2
  refine ⟨hread, fun rd rs1 imm hrd h0 hN h4 => ⟨_, execLoad_of_aligned rd h0 hN h4, ?_⟩⟩
  rw [advancePc_readReg, readReg_writeReg_same, if_neg hrd]
  exact hread _

/-! ## The inspector -/

/-- Settles O11: the listed addresses are those below N that pass the two filters, each with its cell's signed reading. -/
theorem inspectMemoryShowsTheCellsInRange : Obligations.InspectMemoryShowsTheCellsInRange := by
  intro range s a v
  simp only [inspectMemory, List.mem_map, List.mem_filter, List.mem_range, decide_eq_true_eq, Prod.mk.injEq]
  constructor
  · rintro ⟨_, ⟨⟨hN, h4⟩, hrange⟩, rfl, rfl⟩
    exact ⟨h4, hN, hrange, rfl⟩
  · rintro ⟨h4, hN, hrange, rfl⟩
    exact ⟨a, ⟨⟨hN, h4⟩, hrange⟩, rfl, rfl⟩

end Sys2Proof.Machine
end

section
/-! PROOFS. The packed record word (30_encoding.md section 4): what an instruction's word decodes to (R89), which words decode
(R94), and the fields a decoded instruction holds (R84 to R87). -/

namespace Sys2Proof

open Machine

variable {w : RecordWord} {i : Instr} {o : Op}

/-! ## The record forms and the aliases -/

/-- A record form is its own normal form: normalisation changes the aliases alone (R89). -/
theorem recordForm_of_wellFormed (h : i.wellFormed = true) : i.recordForm = i := by
  cases i
  case lb | lh | lbu | lhu | li | sb | sh => cases h
  all_goals rfl

/-- Settles O1: an instruction's word decodes to its record form, which a well-formed instruction is already. -/
theorem recordFormsRoundTrip : Obligations.RecordFormsRoundTrip := by
  intro i h
  rw [decode_encode, recordForm_of_wellFormed h]

theorem recordForm_loadMnemonic {m : Reg → Reg → Word → Instr} (hm : m ∈ loadMnemonics) (rd rs1 : Reg) (imm : Word) :
    (m rd rs1 imm).recordForm = .lw rd rs1 imm := by
  simp only [loadMnemonics, List.mem_cons, List.not_mem_nil, or_false] at hm
  rcases hm with rfl | rfl | rfl | rfl | rfl | rfl <;> rfl

theorem recordForm_storeMnemonic {m : Reg → Reg → Word → Instr} (hm : m ∈ storeMnemonics) (rs1 rs2 : Reg) (imm : Word) :
    (m rs1 rs2 imm).recordForm = .sw rs1 rs2 imm := by
  simp only [storeMnemonics, List.mem_cons, List.not_mem_nil, or_false] at hm
  rcases hm with rfl | rfl | rfl <;> rfl

/-- Settles O2: the record form of each load mnemonic is `lw`, that of each store mnemonic `sw`. -/
theorem aliasWordsAreTheirRecords : Obligations.AliasWordsAreTheirRecords :=
  ⟨fun _ hm rd rs1 imm => by rw [decode_encode, recordForm_loadMnemonic hm],
    fun _ hm rs1 rs2 imm => by rw [decode_encode, recordForm_storeMnemonic hm]⟩

/-! ## The words that decode -/

/-- The number table of the ops gives each number to one op (R94). -/
theorem Op.ofNumber?_eq_some_iff {n : BitVec 5} : Op.ofNumber? n = some o ↔ n = o.number := by
  have table : ∀ n : BitVec 5, ∀ o ∈ Op.ofNumber? n, n = o.number := by decide
  exact ⟨table n o, fun h => h ▸ Op.ofNumber?_number o⟩

/-- The number table of the types gives each number to one type (R93). -/
theorem RecordType.ofNumber?_eq_some_iff {n : BitVec 3} {ty : RecordType} :
    RecordType.ofNumber? n = some ty ↔ n = ty.number := by
  have table : ∀ n : BitVec 3, ∀ ty ∈ RecordType.ofNumber? n, n = ty.number := by decide
  exact ⟨table n ty, fun h => h ▸ RecordType.ofNumber?_number ty⟩

/-- A word decodes to an instruction exactly when its zero bits are clear, its type and op numbers are those of an op, and
the instruction is that op's with the word's fields. -/
theorem decode_eq_ok_iff : decode w = .ok i ↔
    ∃ o : Op, zeroField w = 0 ∧ typeField w = o.recordType.number ∧ opField w = o.number ∧ i = o.withFields w := by
  constructor
  · intro h
    obtain ⟨o, hz, ht, ho, hi⟩ := decode_ok h
    exact ⟨o, hz, RecordType.ofNumber?_eq_some_iff.mp ht, Op.ofNumber?_eq_some_iff.mp ho, hi⟩
  · rintro ⟨o, hz, ht, ho, rfl⟩
    exact decode_of_fields hz ht ho

/-- Settles O4: the instruction that a well-formed word decodes to is its op's with the word's fields. -/
theorem decodesExactlyWellFormedWords : Obligations.DecodesExactlyWellFormedWords := by
  intro w
  constructor
  · rintro ⟨i, h⟩
    obtain ⟨o, hz, ht, ho, -⟩ := decode_eq_ok_iff.mp h
    exact ⟨hz, o, ht, ho⟩
  · rintro ⟨hz, o, ht, ho⟩
    exact ⟨_, decode_of_fields hz ht ho⟩

/-! ## The fields of a decoded instruction (R84 to R87) -/

variable (o w)

@[simp] theorem op_withFields : (o.withFields w).op = o := by cases o <;> rfl

@[simp] theorem wellFormed_withFields : (o.withFields w).wellFormed = true := by cases o <;> rfl

@[simp] theorem rs1OrZero_withFields : (o.withFields w).rs1OrZero = rs1Field w := by cases o <;> rfl

variable {o}

/-- Types R and I have the field rd. -/
theorem rdOrZero_withFields (h : o.recordType = .r ∨ o.recordType = .i) : (o.withFields w).rdOrZero = rdField w := by
  cases o
  case sw | beq | bne | blt | bge | bltu | bgeu => exact absurd h (by decide)
  all_goals rfl

/-- Every type but I has the field rs2. -/
theorem rs2OrZero_withFields (h : o.recordType ≠ .i) : (o.withFields w).rs2OrZero = rs2Field w := by
  cases o
  case addi | andi | ori | xori | slti | sltiu | slli | srli | srai | lw => exact absurd rfl h
  all_goals rfl

/-- Every type but R has an immediate. -/
theorem immOrZero_withFields (h : o.recordType ≠ .r) : (o.withFields w).immOrZero = immField w := by
  cases o
  case add | sub | and | or | xor | sll | srl | sra | slt | sltu => exact absurd rfl h
  all_goals rfl

/-- Settles O3: a decoded instruction is its op's with the word's fields, so each field its type has is the word's. -/
theorem decodedFieldsAreTheWordsFields : Obligations.DecodedFieldsAreTheWordsFields := by
  intro w i h
  obtain ⟨o, hz, ht, ho, rfl⟩ := decode_eq_ok_iff.mp h
  rw [op_withFields, rs1OrZero_withFields]
  exact ⟨wellFormed_withFields w o, hz, ht, ho, rfl, fun h => (rdOrZero_withFields w h).symm,
    fun h => (rs2OrZero_withFields w h).symm, fun h => (immOrZero_withFields w h).symm⟩

end Sys2Proof
end

section
/-! PROOFS. Every instruction runs one of five shared executions and every step has a meaning (30_encoding.md R88,
45_engine.md R261 to R266). -/

namespace Sys2Proof.Machine

variable {s : State} {r : Record} {i : Instr}

/-! ## The five shared executions -/

/-- What holds of the shared execution of each class holds of every instruction (R265). -/
theorem exec_of_shared {P : (State → StepResult) → Prop} (rType : ∀ op rd rs1 rs2, P (execRType op rd rs1 rs2))
    (iArith : ∀ op rd rs1 imm, P (execIArith op rd rs1 imm)) (load : ∀ rd rs1 imm, P (execLoad rd rs1 imm))
    (store : ∀ rs1 rs2 imm, P (execStore rs1 rs2 imm)) (branch : ∀ op rs1 rs2 imm, P (execBranch op rs1 rs2 imm))
    (i : Instr) : P (exec i) := by
  cases i
  case add | sub | and | or | xor | sll | srl | sra | slt | sltu => exact rType ..
  case addi | andi | ori | xori | slti | sltiu | slli | srli | srai => exact iArith ..
  case lw | lb | lh | lbu | lhu | li => exact load ..
  case sw | sb | sh => exact store ..
  case beq | bne | blt | bge | bltu | bgeu => exact branch ..

/-- A branch always completes. -/
theorem execBranch_completes (op : Op) (rs1 rs2 : Reg) (imm : Word) (s : State) :
    ∃ t, execBranch op rs1 rs2 imm s = .next t := by
  unfold execBranch
  split_ifs <;> exact ⟨_, rfl⟩

theorem exec_ne_refused (i : Instr) : ∀ s x, exec i s ≠ .refused x := by
  refine exec_of_shared (P := fun f => ∀ s x, f s ≠ .refused x) ?rType ?iArith ?load ?store ?branch i
  case rType => exact fun _ _ _ _ _ _ h => nomatch h
  case iArith => exact fun _ _ _ _ _ _ h => nomatch h
  case load =>
    intro rd rs1 imm s x h
    rcases execLoad_cases rd rs1 imm s with ⟨_, e⟩ | ⟨_, _, e⟩ | ⟨_, _, e⟩ <;> cases e.symm.trans h
  case store =>
    intro rs1 rs2 imm s x h
    rcases execStore_cases rs1 rs2 imm s with ⟨_, e⟩ | ⟨_, _, e⟩ | ⟨_, _, e⟩ <;> cases e.symm.trans h
  case branch =>
    intro op rs1 rs2 imm s x h
    obtain ⟨_, e⟩ := execBranch_completes op rs1 rs2 imm s
    cases e.symm.trans h

/-! ## What a step answers, by what the fetch finds -/

/-- Outside the valid range of the pc a step only halts (R262). -/
theorem step_of_outside (hpc : 4 * s.instructionCount ≤ u32 s.pc) : step s = .next s.halt := by
  rcases fetch_cases s with ⟨_, e⟩ | ⟨h, _⟩ | ⟨h, _⟩
  · rw [step, e]
  all_goals omega

/-- Inside it, a pc that is no multiple of 4 is an ExecutionError (R264). -/
theorem step_of_misaligned (hpc : u32 s.pc < 4 * s.instructionCount) (h4 : u32 s.pc % 4 ≠ 0) :
    step s = .fault (.executionError (.misalignedFetch s.pc)) := by
  rcases fetch_cases s with ⟨h, _⟩ | ⟨_, _, e⟩ | ⟨_, h, _⟩
  · omega
  · rw [step, e]
  · exact absurd h h4

/-- A record whose word does not decode is an ExecutionError (R266). -/
theorem step_of_decode_error {e : DecodeError} (hf : s.fetch = .record r) (hd : decode r.word = .error e) :
    step s = .fault (.executionError (.unrecognisedRecord (typeField r.word) e)) := by
  simp only [step, hf, hd]

/-- A record whose word decodes runs its instruction (R265). -/
theorem step_of_decode_ok (hf : s.fetch = .record r) (hd : decode r.word = .ok i) : step s = exec i s := by
  simp only [step, hf, hd]

/-- Settles O42: no shared execution refuses, and a step answers a next state, an ExecutionError or what an instruction
answers. -/
theorem nothingIsRefused : Obligations.NothingIsRefused := by
  refine ⟨exec_ne_refused, fun s x h => ?_⟩
  rcases fetch_cases s with ⟨hpc, _⟩ | ⟨hpc, h4, _⟩ | ⟨_, _, r, _, hf⟩
  · cases (step_of_outside hpc).symm.trans h
  · cases (step_of_misaligned hpc h4).symm.trans h
  · cases hd : decode r.word with
    | error e => cases (step_of_decode_error hf hd).symm.trans h
    | ok i => exact exec_ne_refused i s x ((step_of_decode_ok hf hd).symm.trans h)

end Sys2Proof.Machine
end

section
/-! PROOFS. A step reads of the program the records' words alone, so their text and address and the Label Table never matter
to it (30_encoding.md R82, R83, 10_state.md R35). -/

namespace Sys2Proof.Machine

/-- A state with another instruction sequence and Label Table. -/
def State.reprogram (imem : List Record) (labels : List (Text × Nat)) (s : State) : State :=
  { s with imem := imem, labels := labels }

variable {s : State} {imem : List Record} {labels : List (Text × Nat)}

/-! ## The operations commute with the replacement -/

@[simp] theorem reprogram_readReg (r : Reg) : (s.reprogram imem labels).readReg r = s.readReg r := rfl

@[simp] theorem reprogram_dataBytes : (s.reprogram imem labels).dataBytes = s.dataBytes := rfl

@[simp] theorem reprogram_memRead (addr : Int) : (s.reprogram imem labels).memRead addr = s.memRead addr := rfl

@[simp] theorem reprogram_effectiveAddress (rs1 : Reg) (imm : Word) :
    (s.reprogram imem labels).effectiveAddress rs1 imm = s.effectiveAddress rs1 imm := rfl

theorem withProgram_next (t : State) : withProgram imem labels (.next t) = .next (t.reprogram imem labels) := rfl

theorem reprogram_advancePc : (s.reprogram imem labels).advancePc = s.advancePc.reprogram imem labels := rfl

theorem reprogram_setPc (x : Int) : (s.reprogram imem labels).setPc x = (s.setPc x).reprogram imem labels := rfl

/-- The self-loop halt reads of the program its length alone. -/
theorem reprogram_haltAtEnd (hlen : imem.length = s.imem.length) :
    (s.reprogram imem labels).haltAtEnd = s.haltAtEnd.reprogram imem labels := by
  simp only [State.haltAtEnd, State.instructionCount, State.reprogram, hlen]
  rfl

theorem reprogram_writeReg (r : Reg) (v : Word) :
    (s.reprogram imem labels).writeReg r v = (s.writeReg r v).reprogram imem labels := by
  unfold State.writeReg
  split <;> rfl

theorem reprogram_memWrite (addr : Int) (v : Word) :
    (s.reprogram imem labels).memWrite addr v = (s.memWrite addr v).map (State.reprogram imem labels) := by
  rw [State.memWrite, State.memWrite, reprogram_dataBytes]
  split_ifs <;> rfl

/-! ## An instruction and a step commute with the replacement -/

/-- A program of the same length in place of the old one passes through an instruction. -/
theorem exec_reprogram (i : Instr) : ∀ s : State, imem.length = s.imem.length →
    exec i (s.reprogram imem labels) = withProgram imem labels (exec i s) := by
  refine exec_of_shared (P := fun f => ∀ s : State, imem.length = s.imem.length →
    f (s.reprogram imem labels) = withProgram imem labels (f s)) ?rType ?iArith ?load ?store ?branch i
  case rType =>
    intro op rd rs1 rs2 s _
    simp only [execRType, withProgram_next, reprogram_readReg, reprogram_writeReg, reprogram_advancePc]
  case iArith =>
    intro op rd rs1 imm s _
    simp only [execIArith, withProgram_next, reprogram_readReg, reprogram_writeReg, reprogram_advancePc]
  case load =>
    intro rd rs1 imm s _
    simp only [execLoad, reprogram_effectiveAddress, reprogram_memRead, reprogram_writeReg, reprogram_advancePc]
    cases s.memRead (s.effectiveAddress rs1 imm) <;> rfl
  case store =>
    intro rs1 rs2 imm s _
    simp only [execStore, reprogram_effectiveAddress, reprogram_readReg, reprogram_memWrite]
    cases s.memWrite (s.effectiveAddress rs1 imm) (s.readReg rs2) <;> rfl
  case branch =>
    intro op rs1 rs2 imm s hlen
    simp only [execBranch, reprogram_readReg, reprogram_advancePc, reprogram_haltAtEnd hlen]
    split_ifs <;> rfl

/-- Where the old program has a record, one with the same words has a record of the same word. -/
theorem exists_record_of_map_word {old : List Record} (h : imem.map (·.word) = old.map (·.word)) {k : Nat} {r : Record}
    (hr : old[k]? = some r) : ∃ r', imem[k]? = some r' ∧ r'.word = r.word := by
  have hk := congrArg (·[k]?) h
  simpa [hr] using hk

/-- Settles O48: the new program has the old one's length and words, so the fetch finds the same, and what runs then is the
same instruction. -/
theorem textAndLabelsNeverMatter : Obligations.TextAndLabelsNeverMatter := by
  intro s imem labels h
  have hlen : imem.length = s.imem.length := by simpa using congrArg List.length h
  have hcount : (s.reprogram imem labels).instructionCount = s.instructionCount := hlen
  change step (s.reprogram imem labels) = withProgram imem labels (step s)
  rcases fetch_cases s with ⟨hpc, _⟩ | ⟨hpc, h4, _⟩ | ⟨hpc, h4, r, hr, hf⟩
  · rw [step_of_outside hpc, step_of_outside (hcount ▸ hpc)]
    rfl
  · rw [step_of_misaligned hpc h4, step_of_misaligned (s := s.reprogram imem labels) (hcount ▸ hpc) h4]
    rfl
  · obtain ⟨r', hr', hw⟩ := exists_record_of_map_word h hr
    have hf' : (s.reprogram imem labels).fetch = .record r' := fetch_of_record (hcount ▸ hpc) h4 hr'
    cases hd : decode r.word with
    | error e =>
      rw [step_of_decode_error hf hd, step_of_decode_error hf' (hw ▸ hd), hw]
      rfl
    | ok i => rw [step_of_decode_ok hf hd, step_of_decode_ok hf' (hw ▸ hd), exec_reprogram i s hlen]

end Sys2Proof.Machine
end

section
/-! PROOFS. The two passes over a source text: what a successful assembly makes, and which sources are assembled
(40_assembler.md sections 1, 2 and 8). -/

namespace Sys2Proof.Machine

variable {source : Text} {imem : List Record} {labels : Labels} {b : Nat}

/-! ## The numbered lines of a source -/

/-- The numbers of the lines do not matter to the count of the instruction lines among them. -/
theorem length_filter_isInstructionLine (lines : List NumberedLine) :
    (lines.filter (fun p => isInstructionLine p.1)).length = (instructionLinesOf (lines.map (·.1))).length := by
  rw [instructionLinesOf, List.filter_map, List.length_map]
  rfl

theorem map_fst_numbered (source : Text) : ((splitLines source).zipIdx 1).map (·.1) = splitLines source :=
  List.zipIdx_map_fst 1 _

/-- A numbered line at an index is the source's line at that index. -/
theorem getElem?_of_numbered {k : Nat} {p : NumberedLine} (h : ((splitLines source).zipIdx 1)[k]? = some p) :
    (splitLines source)[k]? = some p.1 := by
  rw [← map_fst_numbered source, List.getElem?_map, h]
  rfl

theorem numbered_of_getElem? {k : Nat} {line : Text} (h : (splitLines source)[k]? = some line) :
    ((splitLines source).zipIdx 1)[k]? = some (line, 1 + k) := by
  rw [List.getElem?_zipIdx, h]
  rfl

/-! ## What a successful pass over a source makes -/

/-- Pass 1 ends at four times the number of instruction lines (R124). -/
theorem passOne_end (h : passOne ((splitLines source).zipIdx 1) 0 [] = .ok (labels, b)) :
    b = 4 * (instructionLines source).length := by
  rw [(passOne_spec h (by simp) rfl).1, length_filter_isInstructionLine, map_fst_numbered, Nat.zero_add]
  rfl

/-- Pass 1 registers exactly the label lines of the source (R124, R126). -/
theorem passOne_mem_iff (h : passOne ((splitLines source).zipIdx 1) 0 [] = .ok (labels, b)) (name : Text) (a : Nat) :
    (name, a) ∈ labels ↔ LabelAt source name a := by
  have haddr (k : Nat) : 0 + 4 * ((((splitLines source).zipIdx 1).take k).filter (fun p => isInstructionLine p.1)).length =
      4 * (instructionLinesOf ((splitLines source).take k)).length := by
    rw [length_filter_isInstructionLine, List.map_take, map_fst_numbered, Nat.zero_add]
  simp only [passOne_labels h, haddr, List.not_mem_nil, false_or]
  constructor
  · rintro ⟨k, p, hp, hlabel, ha⟩
    exact ⟨k, p.1, getElem?_of_numbered hp, (classifyLine_label_iff _ _).mp hlabel, ha⟩
  · rintro ⟨k, line, hline, hlabel, ha⟩
    exact ⟨k, _, numbered_of_getElem? hline, (classifyLine_label_iff _ _).mpr hlabel, ha⟩

/-- A lookup in the table of pass 1 finds exactly what the table holds, because it names nothing twice. -/
theorem passOne_find_iff (h : passOne ((splitLines source).zipIdx 1) 0 [] = .ok (labels, b)) (name : Text) (a : Nat) :
    labels.find name = some a ↔ (name, a) ∈ labels :=
  Labels.find_eq_some_iff (passOne_names h .nil (by simp)).1

/-- The texts of the records are the instruction lines of the source (R128, R133). -/
theorem assemble_texts (h : assemble source = .ok (imem, labels)) : imem.map (·.text) = instructionLines source := by
  obtain ⟨_, _, _, h2⟩ := assemble_ok h
  rw [(passTwo_spec h2).1, map_fst_numbered]
  rfl

/-- Two passes that succeed, with the program within its bound, are a successful assembly (R159). -/
theorem assemble_of_passes (h1 : passOne ((splitLines source).zipIdx 1) 0 [] = .ok (labels, b))
    (hb : b ≤ 4 * Config.maxInstructions) (h2 : passTwo labels ((splitLines source).zipIdx 1) 0 = .ok imem) :
    assemble source = .ok (imem, labels) := by
  simp only [assemble, h1, h2, if_neg (not_lt.mpr hb)]

/-- Settles O55: the records are pass 2's and the labels are pass 1's. -/
theorem assemblerMakesOneRecordPerLine : Obligations.AssemblerMakesOneRecordPerLine := by
  intro source imem labels h
  obtain ⟨b, h1, _, _⟩ := assemble_ok h
  obtain ⟨hcount, hlabels⟩ := assemble_count_and_labels h
  obtain ⟨hnodup, hnames⟩ := passOne_names h1 .nil (by simp)
  refine ⟨assemble_texts h, hcount, fun k r hr => ?_, passOne_mem_iff h1, passOne_find_iff h1, hnodup,
    fun l hl => ⟨hnames l hl, hlabels l hl⟩⟩
  obtain ⟨haddr, i, hi⟩ := assemble_records h k r hr
  exact ⟨haddr, i, (decodedFieldsAreTheWordsFields _ _ hi).1, hi⟩

/-- Settles O60: the rules about label names let pass 1 through to the number of instruction lines, and the table it makes
is the source's, with which every instruction line decodes in pass 2. -/
theorem assemblerAcceptsSoundSources : Obligations.AssemblerAcceptsSoundSources := by
  intro source hnames hcount hdecode
  obtain ⟨labels, b, h1⟩ : ∃ ls b, passOne ((splitLines source).zipIdx 1) 0 [] = .ok (ls, b) := by
    refine passOne_ok fun k p name hp hlabel => ?_
    obtain ⟨hne, honce⟩ := hnames k p.1 name (getElem?_of_numbered hp) ((classifyLine_label_iff _ _).mp hlabel)
    exact ⟨hne, rfl, fun j q hq hq' => honce j q.1 (getElem?_of_numbered hq) ((classifyLine_label_iff _ _).mp hq')⟩
  have htable (name : Text) (a : Nat) : labels.find name = some a ↔ LabelAt source name a :=
    (passOne_find_iff h1 name a).trans (passOne_mem_iff h1 name a)
  obtain ⟨imem, h2⟩ : ∃ rs, passTwo labels ((splitLines source).zipIdx 1) 0 = .ok rs := by
    refine passTwo_ok fun k line hline => ?_
    rw [map_fst_numbered] at hline
    rw [Nat.zero_add]
    exact hdecode labels htable k line hline
  exact ⟨imem, labels, assemble_of_passes h1 (passOne_end h1 ▸ Nat.mul_le_mul_left 4 hcount) h2⟩

end Sys2Proof.Machine
end

section
/-! PROOFS. Numerals, literals and immediates: the lexer reads exactly what the grammar says (40_assembler.md section 5). -/

namespace Sys2Proof.Machine

/-! ## Digits -/

/-- What the digit function of a base has to do: read the digits of R142 whose value is below the base, and nothing else. -/
def ReadsDigits (base : Nat) (digit : Char → Option Nat) : Prop :=
  ∀ c v, digit c = some v ↔ (c, v) ∈ digitValues ∧ v < base

section
variable {base : Nat} {digit : Char → Option Nat}

/-- A function that reads no character past 'f' reads the digits of its base if it does so on each of the characters up to
there, and on the table. -/
theorem ReadsDigits.of_finite (hlast : ∀ c v, digit c = some v → c ≤ 'f')
    (hread : ∀ k < 103, ∀ v ∈ digit (Char.ofNat k), (Char.ofNat k, v) ∈ digitValues ∧ v < base)
    (htable : ∀ p ∈ digitValues, p.2 < base → digit p.1 = some p.2) : ReadsDigits base digit := by
  refine fun c v => ⟨fun h => ?_, fun ⟨hm, hv⟩ => htable (c, v) hm hv⟩
  have hc : c.toNat ≤ 'f'.toNat := hlast c v h
  have := hread c.toNat (Nat.lt_succ_of_le hc) v
  rw [Char.ofNat_toNat] at this
  exact this h

theorem readsDigits_decimal : ReadsDigits 10 decimalDigit := by
  refine .of_finite (fun c v h => ?_) (by decide) (by decide)
  unfold decimalDigit at h
  split at h
  · next hc => exact hc.2.trans (by decide)
  · cases h

theorem readsDigits_hex : ReadsDigits 16 hexDigit := by
  refine .of_finite (fun c v h => ?_) (by decide) (by decide)
  unfold hexDigit at h
  split_ifs at h with h9 hf hF
  · exact h9.2.trans (by decide)
  · exact hf.2
  · exact hF.2.trans (by decide)

theorem readsDigits_binary : ReadsDigits 2 binaryDigit := by
  refine .of_finite (fun c v h => ?_) (by decide) (by decide)
  unfold binaryDigit at h
  split_ifs at h with h0 h1
  · exact h0 ▸ by decide
  · exact h1 ▸ by decide

/-! ## Numerals -/

variable {n : Nat} {t : Text}

/-- The digits of a text, from left to right, are folded into the value read so far. -/
theorem digitsFrom_eq_some_iff (hdigit : ReadsDigits base digit) (acc : Nat) : digitsFrom base digit acc t = some n ↔
    ∃ vs : List Nat, List.Forall₂ (fun c v => (c, v) ∈ digitValues ∧ v < base) t vs ∧
      n = vs.foldl (fun a d => a * base + d) acc := by
  induction t generalizing acc with
  | nil => simp [digitsFrom, eq_comm]
  | cons c cs ih =>
    simp only [List.forall₂_cons_left_iff, digitsFrom]
    cases hc : digit c with
    | none =>
      refine ⟨nofun, ?_⟩
      rintro ⟨_, ⟨v, vs, hv, _⟩, _⟩
      rw [(hdigit c v).mpr hv] at hc
      cases hc
    | some d =>
      rw [ih]
      constructor
      · rintro ⟨vs, hvs, hn⟩
        exact ⟨_, ⟨d, vs, (hdigit c d).mp hc, hvs, rfl⟩, hn⟩
      · rintro ⟨_, ⟨v, vs, hv, hvs, rfl⟩, hn⟩
        obtain rfl : d = v := Option.some.inj (hc.symm.trans ((hdigit c v).mpr hv))
        exact ⟨vs, hvs, hn⟩

/-- `digitsValue` reads exactly the numerals of its base, with their values. -/
theorem digitsValue_eq_some_iff (hdigit : ReadsDigits base digit) : digitsValue base digit t = some n ↔ Numeral base t n := by
  have hfold (vs : List Nat) : vs.foldl (fun a d => a * base + d) 0 = Nat.ofDigits base vs.reverse := by
    rw [Nat.ofDigits_eq_foldr, List.foldr_reverse]
    simp only [Nat.cast_id, Nat.mul_comm base, Nat.add_comm]
  unfold digitsValue Numeral
  split
  · next ht => simp [ht]
  · next ht => simp only [digitsFrom_eq_some_iff hdigit, hfold, ne_eq, ht, not_false_eq_true, true_and]

/-- Every character of a numeral is a digit of its base. -/
theorem Numeral.digit_of_mem (h : Numeral base t n) {c : Char} (hc : c ∈ t) : ∃ v < base, (c, v) ∈ digitValues := by
  obtain ⟨_, vs, hvs, _⟩ := h
  have hboth := hvs.imp fun c v hv => And.intro (⟨v, hv.2, hv.1⟩ : ∃ v < base, (c, v) ∈ digitValues) hv
  exact ((List.forall₂_and_left _ _).mp hboth).1 c hc

end

/-! ## Literals -/

variable {t ds : Text} {n : Nat} {v : Int}

theorem numeral_ten_iff : digitsValue 10 decimalDigit t = some n ↔ Numeral 10 t n := digitsValue_eq_some_iff readsDigits_decimal

/-- A token of the grammar's decimal form begins like none of the other forms. -/
theorem literalValue_of_numeral (h : Numeral 10 t n) : literalValue t = some (n : Int) := by
  unfold literalValue
  split
  · next ds => exact absurd (h.digit_of_mem (.head _)) (by decide)
  · next ds => exact absurd (h.digit_of_mem (.tail _ (.head _))) (by decide)
  · next ds => exact absurd (h.digit_of_mem (.tail _ (.head _))) (by decide)
  · rw [numeral_ten_iff.mpr h]
    rfl

/-- A token is read as a literal exactly where a form of R142 gives it that value. -/
theorem literalValue_eq_some_iff : literalValue t = some v ↔ Literal t v := by
  constructor
  · intro h
    unfold literalValue at h
    split at h
    all_goals
      obtain ⟨n, hn, rfl⟩ := Option.map_eq_some_iff.mp h
    · exact .inl ⟨_, n, rfl, numeral_ten_iff.mp hn, rfl⟩
    · exact .inr (.inr (.inl ⟨_, n, rfl, (digitsValue_eq_some_iff readsDigits_hex).mp hn, rfl⟩))
    · exact .inr (.inr (.inr ⟨_, n, rfl, (digitsValue_eq_some_iff readsDigits_binary).mp hn, rfl⟩))
    · exact .inr (.inl ⟨n, numeral_ten_iff.mp hn, rfl⟩)
  · rintro (⟨ds, n, rfl, hn, rfl⟩ | ⟨n, hn, rfl⟩ | ⟨ds, n, rfl, hn, rfl⟩ | ⟨ds, n, rfl, hn, rfl⟩)
    · simp [literalValue, numeral_ten_iff.mpr hn]
    · exact literalValue_of_numeral hn
    · simp [literalValue, (digitsValue_eq_some_iff readsDigits_hex).mpr hn]
    · simp [literalValue, (digitsValue_eq_some_iff readsDigits_binary).mpr hn]

/-! ## Immediates -/

/-- A label gives its distance, and only a token that names no label is read as a literal (R140 to R143). -/
theorem immediateOperand_ok_iff (labels : Labels) (here : Nat) (t : Text) (w : Word) :
    immediateOperand labels here t = .ok w ↔
      (∃ a, labels.find t = some a ∧ (a : Int) - here = s32 w) ∨ (labels.find t = none ∧ literalValue t = some (s32 w)) := by
  unfold immediateOperand
  cases hlabel : labels.find t with
  | some a => simp [immediateOf_ok]
  | none =>
    cases hlit : literalValue t with
    | some v => simp [immediateOf_ok]
    | none => simp

/-- Settles O57: a label is looked up before a literal is read, either value goes through the one range check of the
immediate field, and the literals read are those of the grammar. -/
theorem immediatesResolveExactly : Obligations.ImmediatesResolveExactly :=
  ⟨immediateOperand_ok_iff, fun _ _ => literalValue_eq_some_iff⟩

end Sys2Proof.Machine
end

section
/-! PROOFS. Register tokens, memory operands and instruction lines: a line decodes exactly as the grammar of its class says
(40_assembler.md sections 3, 4, 6 and 7). -/

namespace Sys2Proof.Machine

/-! ## Register tokens -/

variable {t : Text} {r : Reg} {n : Nat}

/-- A name found in a list stands there, at the index found. -/
theorem nameIndex_eq_some {names : List String} (h : nameIndex t names = some n) : ∃ s, names[n]? = some s ∧ t = s.toList := by
  induction names generalizing n with
  | nil => cases h
  | cons s names ih =>
    unfold nameIndex at h
    split at h
    · next ht =>
      cases h
      exact ⟨s, rfl, ht⟩
    · obtain ⟨k, hk, rfl⟩ := Option.map_eq_some_iff.mp h
      exact ih hk

/-- What is read as an ABI name stands in the table of 10_state.md R24, with the number read. -/
theorem abiNumber_mem_abiTable (h : abiNumber t = some n) : ∃ p ∈ abiTable, t = p.1.toList ∧ p.2 = n := by
  unfold abiNumber at h
  split at h
  · next ht =>
    cases h
    exact ⟨("fp", 8), by decide, ht, rfl⟩
  · obtain ⟨s, hs, rfl⟩ := nameIndex_eq_some h
    have hall : ∀ q ∈ abiNames.zipIdx, q ∈ abiTable := by decide
    exact ⟨(s, n), hall _ (List.mk_mem_zipIdx_iff_getElem?.mpr hs), rfl, rfl⟩

/-- Each name of the table of 10_state.md R24 is read with its number. -/
theorem names_of_abiTable : ∀ p ∈ abiTable, (xNumber p.1.toList).or (abiNumber p.1.toList) = some p.2 := by decide

theorem xNumber_eq_some_iff : xNumber t = some n ↔ ∃ ds, t = 'x' :: ds ∧ Numeral 10 ds n := by
  unfold xNumber
  split
  · simp [numeral_ten_iff]
  · next hx => exact ⟨nofun, fun ⟨ds, ht, _⟩ => absurd ht (hx ds)⟩

/-- A numeral is neither an `xN` name nor an ABI name: each of these has a letter. -/
theorem names_none_of_numeral (h : Numeral 10 t n) : xNumber t = none ∧ abiNumber t = none := by
  constructor <;> refine Option.eq_none_iff_forall_ne_some.mpr fun k hk => ?_
  · obtain ⟨ds, rfl, _⟩ := xNumber_eq_some_iff.mp hk
    exact absurd (h.digit_of_mem (.head _)) (by decide)
  · obtain ⟨p, hp, rfl, _⟩ := abiNumber_mem_abiTable hk
    have hletter : ∀ p ∈ abiTable, digitsValue 10 decimalDigit p.1.toList = none := by decide
    rw [← numeral_ten_iff, hletter p hp] at h
    cases h

/-- `registerOf` answers the number read, if it is below 32 (R136). -/
theorem registerOf_eq_some_iff_number :
    registerOf t = some r ↔ ((xNumber t).or (abiNumber t)).or (digitsValue 10 decimalDigit t) = some r.val := by
  unfold registerOf
  split
  · next n hn =>
    rw [hn]
    split
    · simp [Fin.ext_iff]
    · next h32 => simp; omega
  · next hn => simp [hn]

/-- A register token is read as the register that R134 and R135 give it. -/
theorem registerOf_eq_some_iff : registerOf t = some r ↔ RegisterToken t r := by
  constructor
  · intro h
    rcases Option.or_eq_some_iff.mp (registerOf_eq_some_iff_number.mp h) with hname | ⟨_, hn⟩
    · rcases Option.or_eq_some_iff.mp hname with hx | ⟨_, habi⟩
      · exact .inl (xNumber_eq_some_iff.mp hx)
      · exact .inr (.inl (abiNumber_mem_abiTable habi))
    · exact .inr (.inr (numeral_ten_iff.mp hn))
  · rintro (hx | ⟨p, hp, rfl, hr⟩ | hn)
    · rw [registerOf_eq_some_iff_number, xNumber_eq_some_iff.mpr hx]
      rfl
    · rw [registerOf_eq_some_iff_number, names_of_abiTable p hp, hr]
      rfl
    · obtain ⟨hx, habi⟩ := names_none_of_numeral hn
      rw [registerOf_eq_some_iff_number, hx, habi, numeral_ten_iff.mpr hn]
      rfl

@[simp] theorem registerOperand_ok_iff : registerOperand t = .ok r ↔ RegisterToken t r := by
  rw [← registerOf_eq_some_iff]
  unfold registerOperand
  cases registerOf t <;> simp

/-! ## Memory operands -/

/-- A parenthesis is no digit of any base. -/
theorem Numeral.paren_not_mem {base : Nat} {ds : Text} (h : Numeral base ds n) {c : Char} (hc : c ∈ ['(', ')']) : c ∉ ds := by
  intro hm
  obtain ⟨v, _, hv⟩ := h.digit_of_mem hm
  have hall : ∀ p ∈ digitValues, p.1 ∉ ['(', ')'] := by decide
  exact hall _ hv hc

/-- No literal has an opening parenthesis, so the first one of a memory operand ends its offset. -/
theorem Literal.paren_not_mem {v : Int} (h : Literal t v) : '(' ∉ t := by
  rcases h with ⟨ds, n, rfl, hn, _⟩ | ⟨n, hn, _⟩ | ⟨ds, n, rfl, hn, _⟩ | ⟨ds, n, rfl, hn, _⟩ <;>
    simpa using hn.paren_not_mem (c := '(') (.head _)

/-- A register text ends where the closing parenthesis stands. -/
theorem RegisterToken.ne_nil_and_paren_not_mem (h : RegisterToken t r) : t ≠ [] ∧ '(' ∉ t ∧ ')' ∉ t := by
  rcases h with ⟨ds, rfl, hn⟩ | ⟨p, hp, rfl, _⟩ | hn
  · simpa using ⟨hn.paren_not_mem (c := '(') (.head _), hn.paren_not_mem (c := ')') (.tail _ (.head _))⟩
  · have hall : ∀ p ∈ abiTable, p.1.toList ≠ [] ∧ '(' ∉ p.1.toList ∧ ')' ∉ p.1.toList := by decide
    exact hall p hp
  · exact ⟨hn.1, hn.paren_not_mem (.head _), hn.paren_not_mem (.tail _ (.head _))⟩

/-- A text that goes on after its first opening parenthesis is cut there. -/
theorem eq_append_of_drop_ne_nil (h : t.drop ((t.takeWhile (· ≠ '(')).length + 1) ≠ []) :
    t = t.takeWhile (· ≠ '(') ++ '(' :: t.drop ((t.takeWhile (· ≠ '(')).length + 1) := by
  induction t with
  | nil => exact absurd rfl h
  | cons c cs ih =>
    by_cases hc : c = '('
    · simp [hc]
    · simp only [ne_eq, hc, not_false_eq_true, decide_true, List.takeWhile_cons_of_pos, List.length_cons,
        List.drop_succ_cons, List.cons_append, List.cons.injEq, true_and] at h ⊢
      exact ih h

/-- The shape of a memory operand (R148): a literal, and in parentheses a register text that is not empty and has no
parenthesis itself. -/
theorem memoryOperand_eq_some_iff {v : Int} {off reg : Text} : memoryOperand t = some (v, off, reg) ↔
    t = off ++ '(' :: (reg ++ [')']) ∧ Literal off v ∧ reg ≠ [] ∧ '(' ∉ reg ∧ ')' ∉ reg := by
  constructor
  · intro h
    simp only [memoryOperand] at h
    split at h
    · cases h
    · next u hlit =>
      split at h
      · next hshape =>
        obtain ⟨hlast, hreg⟩ := hshape
        cases h
        refine ⟨?_, literalValue_eq_some_iff.mp hlit, hreg⟩
        rw [List.dropLast_append_getLast? ')' hlast]
        exact eq_append_of_drop_ne_nil (List.ne_nil_of_mem (List.mem_of_getLast? hlast))
      · cases h
  · rintro ⟨rfl, hlit, hreg⟩
    have hoff : (off ++ '(' :: (reg ++ [')'])).takeWhile (· ≠ '(') = off := by
      rw [List.takeWhile_append_of_pos, List.takeWhile_cons_of_neg (by simp), List.append_nil]
      exact fun c hc => by simpa using ne_of_mem_of_not_mem hc hlit.paren_not_mem
    have hrest : (off ++ '(' :: (reg ++ [')'])).drop (off.length + 1) = reg ++ [')'] := by simp
    simp only [memoryOperand, hoff, hrest, literalValue_eq_some_iff.mpr hlit, List.getLast?_concat, List.dropLast_concat,
      true_and, if_pos hreg]

/-- A computation that can fail goes on exactly where its first part succeeds. -/
@[simp] theorem except_bind_ok_iff {ε α β : Type} {x : Except ε α} {f : α → Except ε β} {y : β} :
    (x >>= f) = .ok y ↔ ∃ a, x = .ok a ∧ f a = .ok y := by
  cases x with
  | error e => exact ⟨nofun, nofun⟩
  | ok a => exact ⟨fun h => ⟨a, rfl, h⟩, fun ⟨_, ha, h⟩ => by cases ha; exact h⟩

/-- A memory operand resolves to its register and its offset (R148). -/
@[simp] theorem memoryOperandOf_ok_iff {m : Text} {imm : Word} : memoryOperandOf m t = .ok (r, imm) ↔ MemoryToken t imm r := by
  unfold memoryOperandOf
  constructor
  · intro h
    split at h
    · cases h
    · next v off reg hshape =>
      obtain ⟨ht, hlit, _⟩ := memoryOperand_eq_some_iff.mp hshape
      obtain ⟨_, himm, hbase⟩ := except_bind_ok_iff.mp h
      obtain ⟨_, hreg, hok⟩ := except_bind_ok_iff.mp hbase
      cases hok
      exact ⟨off, reg, ht, (immediateOf_ok ..).mp himm ▸ hlit, registerOperand_ok_iff.mp hreg⟩
  · rintro ⟨off, reg, ht, hoff, hreg⟩
    rw [memoryOperand_eq_some_iff.mpr ⟨ht, hoff, hreg.ne_nil_and_paren_not_mem⟩]
    simp only [except_bind_ok_iff]
    exact ⟨_, (immediateOf_ok ..).mpr rfl, _, registerOperand_ok_iff.mpr hreg, rfl⟩

/-! ## Mnemonics -/

/-- The model's table is the five tables of 30_encoding.md R88, class by class. -/
theorem mnemonicTable_eq : mnemonicTable = rSyntax.map (fun p => (p.1, .rClass p.2)) ++
    iArithSyntax.map (fun p => (p.1, .iArith p.2)) ++ loadSyntax.map (fun p => (p.1, .load p.2)) ++
    storeSyntax.map (fun p => (p.1, .store p.2)) ++ branchSyntax.map (fun p => (p.1, .branch p.2)) := rfl

/-- In a table that names nothing twice, a lookup finds exactly the rows. -/
theorem findMnemonic_eq_some_iff {rows : List (String × Mnemonic)} (hn : (rows.map (·.1)).Nodup) {m : Text} {k : Mnemonic} :
    findMnemonic m rows = some k ↔ ∃ n, (n, k) ∈ rows ∧ m = n.toList := by
  induction rows with
  | nil => simp [findMnemonic]
  | cons row rows ih =>
    obtain ⟨name, k'⟩ := row
    obtain ⟨hname, hn⟩ := List.nodup_cons.mp hn
    unfold findMnemonic
    split
    · next hm =>
      constructor
      · rintro ⟨⟩
        exact ⟨name, .head _, hm⟩
      · rintro ⟨n, hrow, hm'⟩
        obtain rfl : name = n := String.toList_inj.mp (hm.symm.trans hm')
        rcases List.mem_cons.mp hrow with hrow | hrow
        · cases hrow
          rfl
        · exact absurd (List.mem_map_of_mem hrow) hname
    · next hm =>
      rw [ih hn]
      refine exists_congr fun n => and_congr_left fun hm' => ?_
      rw [List.mem_cons, or_iff_right]
      rintro ⟨⟩
      exact hm hm'

theorem mnemonicOf_eq_some_iff {m : Text} {k : Mnemonic} :
    mnemonicOf m = some k ↔ ∃ n, (n, k) ∈ mnemonicTable ∧ m = n.toList :=
  findMnemonic_eq_some_iff (by decide)

/-! ## Operands and lines -/

/-- The operands of a class in number and order, with the instruction they make (R145 to R150). -/
def OperandSyntax (labels : Labels) (here : Nat) (ops : List Text) (i : Instr) : Mnemonic → Prop
  | .rClass build => ∃ a b c rd rs1 rs2, ops = [a, b, c] ∧ RegisterToken a rd ∧ RegisterToken b rs1 ∧ RegisterToken c rs2 ∧
      i = build rd rs1 rs2
  | .iArith build => ∃ a b c rd rs1 imm, ops = [a, b, c] ∧ RegisterToken a rd ∧ RegisterToken b rs1 ∧
      immediateOperand labels here c = .ok imm ∧ i = build rd rs1 imm
  | .load build => ∃ a b rd rs1 imm, ops = [a, b] ∧ RegisterToken a rd ∧ MemoryToken b imm rs1 ∧ i = build rd rs1 imm
  | .store build => ∃ a b rs1 rs2 imm, ops = [a, b] ∧ RegisterToken a rs2 ∧ MemoryToken b imm rs1 ∧ i = build rs1 rs2 imm
  | .branch build => ∃ a b c rs1 rs2 imm, ops = [a, b, c] ∧ RegisterToken a rs1 ∧ RegisterToken b rs2 ∧
      immediateOperand labels here c = .ok imm ∧ i = build rs1 rs2 imm

variable {labels : Labels} {here : Nat} {ops : List Text} {i : Instr}

/-- The operands of a line decode exactly to what the grammar of the mnemonic's class makes of them. -/
theorem decodeOperands_ok_iff {m : Text} {k : Mnemonic} :
    decodeOperands labels here m k ops = .ok i ↔ OperandSyntax labels here ops i k := by
  unfold decodeOperands
  split
  · simp [OperandSyntax, eq_comm (a := i)]
  · simp [OperandSyntax, eq_comm (a := i)]
  · simp [OperandSyntax, eq_comm (a := i)]
  · next a b =>
    constructor
    · intro h
      obtain ⟨rs2, ha, h⟩ := except_bind_ok_iff.mp h
      obtain ⟨⟨rs1, imm⟩, hb, h⟩ := except_bind_ok_iff.mp h
      cases h
      exact ⟨a, b, rs1, rs2, imm, rfl, registerOperand_ok_iff.mp ha, memoryOperandOf_ok_iff.mp hb, rfl⟩
    · rintro ⟨_, _, rs1, rs2, imm, hops, ha, hb, rfl⟩
      cases hops
      exact except_bind_ok_iff.mpr ⟨rs2, registerOperand_ok_iff.mpr ha, except_bind_ok_iff.mpr
        ⟨(rs1, imm), memoryOperandOf_ok_iff.mpr hb, rfl⟩⟩
  · simp [OperandSyntax, eq_comm (a := i)]
  · next h => exact ⟨nofun, fun ⟨a, b, c, _, _, _, hops, _⟩ => (h a b c hops).elim⟩
  · next h => exact ⟨nofun, fun ⟨a, b, c, _, _, _, hops, _⟩ => (h a b c hops).elim⟩
  · next h => exact ⟨nofun, fun ⟨a, b, _, _, _, hops, _⟩ => (h a b hops).elim⟩
  · next h => exact ⟨nofun, fun ⟨a, b, _, _, _, hops, _⟩ => (h a b hops).elim⟩
  · next h => exact ⟨nofun, fun ⟨a, b, c, _, _, _, hops, _⟩ => (h a b c hops).elim⟩

/-- The rows of one class in the mnemonic table are the rows of the class's own table. -/
theorem exists_row_iff {β : Type} {rows : List (String × β)} {toMnemonic : β → Mnemonic} {m : Text} {P : Mnemonic → Prop} :
    (∃ k n, (n, k) ∈ rows.map (fun p => (p.1, toMnemonic p.2)) ∧ m = n.toList ∧ P k) ↔
      ∃ p ∈ rows, m = p.1.toList ∧ P (toMnemonic p.2) := by
  constructor
  · rintro ⟨k, n, hrow, hm, hP⟩
    obtain ⟨p, hp, hrow⟩ := List.mem_map.mp hrow
    cases hrow
    exact ⟨p, hp, hm, hP⟩
  · rintro ⟨p, hp, hm, hP⟩
    exact ⟨_, _, List.mem_map_of_mem hp, hm, hP⟩

/-- What `LineSyntax` asks of a line is a row of the mnemonic table and the operands of its class. -/
theorem lineSyntax_iff {m : Text} :
    LineSyntax labels here m ops i ↔ ∃ k, mnemonicOf m = some k ∧ OperandSyntax labels here ops i k := by
  simp only [mnemonicOf_eq_some_iff, ← exists_and_right, and_assoc, mnemonicTable_eq, List.mem_append, or_and_right,
    exists_or, exists_row_iff, or_assoc]
  rfl

/-- A cleaned line decodes exactly as `LineSyntax` says: the mnemonic's class, then the operands (R128 to R132). -/
theorem decodeLine_ok_iff {c : Text} : decodeLine labels here c = .ok i ↔
    ∃ m ops, tokens c = m :: ops ∧ LineSyntax labels here (m.map Char.toLower) ops i := by
  constructor
  · intro h
    unfold decodeLine at h
    split at h
    · cases h
    · next m ops hc =>
      dsimp only at h
      split at h
      · cases h
      · next k hk => exact ⟨m, ops, hc, lineSyntax_iff.mpr ⟨k, hk, decodeOperands_ok_iff.mp h⟩⟩
  · rintro ⟨m, ops, hc, hline⟩
    obtain ⟨k, hk, hops⟩ := lineSyntax_iff.mp hline
    simp only [decodeLine, hc, hk]
    exact decodeOperands_ok_iff.mpr hops

/-- A record form is its own record form. -/
@[simp] theorem recordForm_recordForm (i : Instr) : i.recordForm.recordForm = i.recordForm := by cases i <;> rfl

/-- Settles O56: pass 2 decodes each line at its own address with the whole Label Table, and the record's word keeps the
record form of what the line decodes to. -/
theorem recordsDecodeTheirLines : Obligations.RecordsDecodeTheirLines := by
  refine ⟨fun source imem labels h k r hr => ?_, fun labels here c i => decodeLine_ok_iff⟩
  obtain ⟨_, _, _, h2⟩ := assemble_ok h
  obtain ⟨_, i, hi, hword⟩ := (passTwo_spec h2).2 k r hr
  rw [Nat.zero_add] at hi
  exact ⟨i, hi, by rw [hword, decode_encode, recordForm_recordForm]⟩

end Sys2Proof.Machine
end

section
/-! PROOFS. The ALU is the table of 41_alu_register.md R180, and every type R instruction completes with its row's result and
leaves the rest of the state unchanged (R182 to R192). -/

namespace Sys2Proof.Machine

/-! ## The model's bit-vector operators are the table's exact formulas (R180) -/

section
variable (a b : Word)

theorem word_add_eq_addFormula : a + b = addFormula a b := by
  apply BitVec.eq_of_toNat_eq
  simp [addFormula]

theorem word_sub_eq_subFormula : a - b = subFormula a b := by
  apply BitVec.eq_of_toNat_eq
  rw [subFormula, BitVec.toNat_sub, BitVec.toNat_ofInt, u32, u32]
  omega

theorem shiftLeft_eq_sllFormula : a <<< shiftAmount b = sllFormula a b := by
  apply BitVec.eq_of_toNat_eq
  simp [sllFormula, shiftAmount, Nat.shiftLeft_eq]

/-- A right shift never exceeds its operand, so the quotient is stored exactly. -/
theorem shiftRight_eq_srlFormula : a >>> shiftAmount b = srlFormula a b := by
  apply BitVec.eq_of_toNat_eq
  have hlt : u32 a / 2 ^ shiftAmount b < 2 ^ 32 := (Nat.div_le_self ..).trans_lt a.isLt
  rw [BitVec.toNat_ushiftRight, Nat.shiftRight_eq_div_pow]
  exact (Nat.mod_eq_of_lt hlt).symm

/-- The arithmetic shift rounds down, as `fdiv` by a power of 2 does. -/
theorem sshiftRight_eq_sraFormula : a.sshiftRight (shiftAmount b) = sraFormula a b := by
  have hfloor : s32 a >>> shiftAmount b = (s32 a).fdiv (2 ^ shiftAmount b) := by
    rw [Int.shiftRight_eq_div_pow, Int.fdiv_eq_ediv_of_nonneg _ (by positivity), Nat.cast_pow, Nat.cast_ofNat]
  exact congrArg (BitVec.ofInt 32) hfloor

theorem boolWord_slt_eq_sltFormula : boolWord (a.slt b) = sltFormula a b := by
  simp only [boolWord, sltFormula, BitVec.slt_iff_toInt_lt]

theorem boolWord_ult_eq_sltuFormula : boolWord (a.ult b) = sltuFormula a b := by
  simp only [boolWord, sltuFormula, BitVec.ult_iff_toNat_lt]

theorem bitwise_and : Bitwise (· && ·) a b (a &&& b) := fun _ _ => BitVec.getLsbD_and
theorem bitwise_or : Bitwise (· || ·) a b (a ||| b) := fun _ _ => BitVec.getLsbD_or
theorem bitwise_xor : Bitwise (· ^^ ·) a b (a ^^^ b) := fun _ _ => BitVec.getLsbD_xor

end

/-- A row of the table that two ops share holds if it holds of each. -/
theorem forall_mem_pair {α : Type} {x y : α} {P : α → Prop} (hx : P x) (hy : P y) : ∀ o ∈ [x, y], P o := by
  simp [hx, hy]

/-- Settles O12, row by row: the immediate op of a row is computed as the register op is. -/
theorem aluFollowsItsTable : Obligations.AluFollowsItsTable := by
  intro a b
  have add := word_add_eq_addFormula a b
  have and := bitwise_and a b
  have or := bitwise_or a b
  have xor := bitwise_xor a b
  have sll := shiftLeft_eq_sllFormula a b
  have srl := shiftRight_eq_srlFormula a b
  have sra := sshiftRight_eq_sraFormula a b
  have slt := boolWord_slt_eq_sltFormula a b
  have sltu := boolWord_ult_eq_sltuFormula a b
  refine ⟨forall_mem_pair add add, word_sub_eq_subFormula a b, forall_mem_pair and and, forall_mem_pair or or,
    forall_mem_pair xor xor, forall_mem_pair sll sll, forall_mem_pair srl srl, forall_mem_pair sra sra,
    forall_mem_pair slt slt, forall_mem_pair sltu sltu, ?others⟩
  case others => simp [alu]

/-! ## A register-writing instruction: its result and its frame -/

section
variable {s : State} {rd rs1 rs2 : Reg} {op : Op} {v : Word}

/-- Writing a register and passing the pc on changes nothing else (R182). -/
theorem registerResult_writeReg_advancePc : RegisterResult s (s.writeReg rd v).advancePc rd v := by
  have hmem : SameMem s (s.writeReg rd v).advancePc := fun addr => by simp
  have hprogram : SameProgram s (s.writeReg rd v).advancePc :=
    ⟨writeReg_imem s rd v, writeReg_labels s rd v, writeReg_dataBytes s rd v⟩
  exact ⟨readReg_writeReg_same s rd v, fun q hq => readReg_writeReg_other s rd q v hq,
    passesOn_advancePc (writeReg_pc s rd v), hmem, hprogram, writeReg_status s rd v⟩

/-- A type R record completes, and its destination holds what the ALU answers. -/
theorem execRType_result (h : alu op (s.readReg rs1) (s.readReg rs2) = v) :
    ∃ t, execRType op rd rs1 rs2 s = .next t ∧ RegisterResult s t rd v :=
  ⟨_, rfl, h ▸ registerResult_writeReg_advancePc⟩

/-- The same for a result that is known by its bits. -/
theorem execRType_bitwise {f : Bool → Bool → Bool}
    (h : Bitwise f (s.readReg rs1) (s.readReg rs2) (alu op (s.readReg rs1) (s.readReg rs2))) :
    ∃ t v, execRType op rd rs1 rs2 s = .next t ∧ Bitwise f (s.readReg rs1) (s.readReg rs2) v ∧
      RegisterResult s t rd v :=
  ⟨_, _, rfl, h, registerResult_writeReg_advancePc⟩

end

/-! ## The ten type R instructions -/

/-- Settles O14: both are type R records whose ALU result is the formula. -/
theorem addSubResults : Obligations.AddSubResults := fun _ _ _ _ =>
  ⟨execRType_result (op := .add) (word_add_eq_addFormula ..), execRType_result (op := .sub) (word_sub_eq_subFormula ..)⟩

/-- Settles O15: the ALU's word is the one whose bits are the combined bits. -/
theorem andOrXorResults : Obligations.AndOrXorResults := fun _ _ _ _ =>
  ⟨execRType_bitwise (op := .and) (bitwise_and _ _), execRType_bitwise (op := .or) (bitwise_or _ _),
    execRType_bitwise (op := .xor) (bitwise_xor _ _)⟩

/-- Settles O16: the shift amount is the low five bits of the second source, which is its value mod 32. -/
theorem shiftResults : Obligations.ShiftResults := fun _ _ _ _ =>
  ⟨execRType_result (op := .sll) (shiftLeft_eq_sllFormula ..), execRType_result (op := .srl) (shiftRight_eq_srlFormula ..),
    execRType_result (op := .sra) (sshiftRight_eq_sraFormula ..)⟩

/-- Settles O17: the signed and the unsigned comparison of the sources' words are those of their readings. -/
theorem setLessResults : Obligations.SetLessResults := fun _ _ _ _ =>
  ⟨execRType_result (op := .slt) (boolWord_slt_eq_sltFormula ..),
    execRType_result (op := .sltu) (boolWord_ult_eq_sltuFormula ..)⟩

end Sys2Proof.Machine
end

section
/-! PROOFS. Every type I arithmetic instruction completes with its row's result on the source and the full 32-bit immediate,
and leaves the rest of the state unchanged (42_alu_immediate.md R201 to R209). -/

namespace Sys2Proof.Machine

section
variable {s : State} {rd rs1 : Reg} {imm v : Word} {op : Op}

/-- A type I arithmetic record completes, and its destination holds what the ALU answers on the immediate. -/
theorem execIArith_result (h : alu op (s.readReg rs1) imm = v) :
    ∃ t, execIArith op rd rs1 imm s = .next t ∧ RegisterResult s t rd v :=
  ⟨_, rfl, h ▸ registerResult_writeReg_advancePc⟩

/-- The same for a result that is known by its bits. -/
theorem execIArith_bitwise {f : Bool → Bool → Bool}
    (h : Bitwise f (s.readReg rs1) imm (alu op (s.readReg rs1) imm)) :
    ∃ t v, execIArith op rd rs1 imm s = .next t ∧ Bitwise f (s.readReg rs1) imm v ∧ RegisterResult s t rd v :=
  ⟨_, _, rfl, h, registerResult_writeReg_advancePc⟩

end

/-! ## The nine type I arithmetic instructions -/

/-- Settles O18: `addi` is a type I record whose ALU result is the sum's formula. -/
theorem addiResult : Obligations.AddiResult := fun _ _ _ _ =>
  execIArith_result (op := .addi) (word_add_eq_addFormula ..)

/-- Settles O19: the ALU's word is the one whose bits are the source's combined with the immediate's. -/
theorem logicImmediateResults : Obligations.LogicImmediateResults := fun _ _ _ _ =>
  ⟨execIArith_bitwise (op := .andi) (bitwise_and _ _), execIArith_bitwise (op := .ori) (bitwise_or _ _),
    execIArith_bitwise (op := .xori) (bitwise_xor _ _)⟩

/-- Settles O20: the signed and the unsigned comparison of the source with the immediate are those of their readings. -/
theorem setLessImmediateResults : Obligations.SetLessImmediateResults := fun _ _ _ _ =>
  ⟨execIArith_result (op := .slti) (boolWord_slt_eq_sltFormula ..),
    execIArith_result (op := .sltiu) (boolWord_ult_eq_sltuFormula ..)⟩

/-- Settles O21: the shift amount is the low five bits of the immediate, which is its value mod 32. -/
theorem shiftImmediateResults : Obligations.ShiftImmediateResults := fun _ _ _ _ =>
  ⟨execIArith_result (op := .slli) (shiftLeft_eq_sllFormula ..),
    execIArith_result (op := .srli) (shiftRight_eq_srlFormula ..),
    execIArith_result (op := .srai) (sshiftRight_eq_sraFormula ..)⟩

end Sys2Proof.Machine
end

section
/-! PROOFS. The load and store instructions (43_load_store.md): an alias runs its record form, a load writes its destination
with the cell or with 0, a store replaces its cell, and a load reads back what was stored. -/

namespace Sys2Proof.Machine

variable {s t : State} {rs1 rs2 : Reg} {imm : Word}

/-- Settles O47: the arms of an alias and of its record form are the same shared execution, and any other instruction is its
own record form. -/
theorem aliasesActAsTheirRecords : Obligations.AliasesActAsTheirRecords := by
  intro i s
  cases i <;> rfl

/-! ## Loads -/

/-- A load from outside 0 .. N-1 loads 0 (R223): the range is tested before the alignment (D25). -/
theorem execLoad_of_outOfRange (rd : Reg)
    (hr : s.effectiveAddress rs1 imm < 0 ∨ s.dataBytes ≤ s.effectiveAddress rs1 imm) :
    execLoad rd rs1 imm s = .next (s.writeReg rd 0).advancePc := by
  rcases execLoad_cases rd rs1 imm s with ⟨_, e⟩ | ⟨⟨h0, hN⟩, _⟩ | ⟨⟨h0, hN⟩, _⟩
  · exact e
  all_goals exact (hr.elim h0.not_gt hN.not_ge).elim

/-- Settles O22: each load mnemonic runs the shared load, which writes the cell's word to its destination. -/
theorem loadsReadTheWholeCell : Obligations.LoadsReadTheWholeCell := by
  intro m hm rd rs1 imm s h0 hN h4
  rw [exec_loadMnemonic hm]
  exact ⟨_, execLoad_of_aligned rd h0 hN h4, registerResult_writeReg_advancePc⟩

/-- Settles O23: each load mnemonic runs the shared load, which writes 0 to its destination. -/
theorem loadsOutOfRangeGiveZero : Obligations.LoadsOutOfRangeGiveZero := by
  intro m hm rd rs1 imm s hr
  rw [exec_loadMnemonic hm]
  exact ⟨_, execLoad_of_outOfRange rd hr, registerResult_writeReg_advancePc⟩

/-! ## Stores -/

/-- A store at an aligned address in range replaces the word of that cell (R225). -/
theorem execStore_of_aligned (rs2 : Reg) (h0 : 0 ≤ s.effectiveAddress rs1 imm)
    (hN : s.effectiveAddress rs1 imm < s.dataBytes) (h4 : s.effectiveAddress rs1 imm % 4 = 0) :
    execStore rs1 rs2 imm s = .next (State.advancePc
      { s with mem := s.mem.write (s.effectiveAddress rs1 imm).toNat (s.readReg rs2) }) := by
  rcases execStore_cases rs1 rs2 imm s with ⟨hr, _⟩ | ⟨_, h, _⟩ | ⟨_, _, e⟩
  · exact absurd ⟨h0, hN⟩ hr
  · exact absurd h4 h
  · exact e

/-- A store completes nowhere but at an aligned address in range. -/
theorem aligned_of_execStore_next (h : execStore rs1 rs2 imm s = .next t) :
    (0 ≤ s.effectiveAddress rs1 imm ∧ s.effectiveAddress rs1 imm < s.dataBytes) ∧ s.effectiveAddress rs1 imm % 4 = 0 := by
  rcases execStore_cases rs1 rs2 imm s with ⟨_, e⟩ | ⟨_, _, e⟩ | ⟨hr, h4, _⟩
  · cases e.symm.trans h
  · cases e.symm.trans h
  · exact ⟨hr, h4⟩

/-- Settles O25: of a canonical memory, a write changes the written cell alone, and a store changes nothing else but the
pc. -/
theorem storesReplaceTheWholeCell : Obligations.StoresReplaceTheWholeCell := by
  intro m hm rs1 rs2 imm s hwf h0 hN h4
  rw [exec_storeMnemonic hm]
  refine ⟨_, execStore_of_aligned rs2 h0 hN h4, ?cell, ?others, fun _ => rfl, passesOn_advancePc rfl, ⟨rfl, rfl, rfl⟩, rfl⟩
  case cell => exact (Memory.read_write hwf).trans (if_pos rfl)
  case others => exact fun a ha => (Memory.read_write hwf).trans (if_neg ha)

/-! ## The round trip -/

/-- Settles O27: the store completed, so its address is aligned and in range; it left the base register and N, so the load
reads that same cell, which holds the stored word (R228). -/
theorem storeThenLoadRoundTrips : Obligations.StoreThenLoadRoundTrips := by
  intro rd rs1 rs2 imm s t hwf h
  obtain ⟨⟨h0, hN⟩, h4⟩ := aligned_of_execStore_next h
  obtain ⟨t', ht', hcell, -, hregs, -, ⟨-, -, hsize⟩, -⟩ :=
    storesReplaceTheWholeCell .sw (.head _) rs1 rs2 imm s hwf h0 hN h4
  obtain rfl : t' = t := Host.Outcome.next.inj (ht'.symm.trans h)
  have haddr : t'.effectiveAddress rs1 imm = s.effectiveAddress rs1 imm := by
    rw [State.effectiveAddress, State.effectiveAddress, hregs]
  rw [← haddr] at h0 hN h4
  rw [← hsize] at hN
  refine ⟨_, execLoad_of_aligned rd h0 hN h4, ?_⟩
  rw [advancePc_readReg, readReg_writeReg_same, haddr]
  exact if_congr Iff.rfl rfl hcell

end Sys2Proof.Machine
end

section
/-! PROOFS. The Branch Evaluator is the table of 44_branch.md R240, every branch completes with its row's result and frame
(R245 to R253), and a branch to a negative address ends the run (R247). -/

namespace Sys2Proof.Machine

/-! ## The Branch Evaluator's conditions (R240, R241) -/

section
variable {a b : Word} {op : Op}

theorem evaluate_beq_iff : evaluate .beq a b = true ↔ a = b := beq_iff_eq
theorem evaluate_bne_iff : evaluate .bne a b = true ↔ a ≠ b := bne_iff_ne
theorem evaluate_blt_iff : evaluate .blt a b = true ↔ s32 a < s32 b := BitVec.slt_iff_toInt_lt
theorem evaluate_bltu_iff : evaluate .bltu a b = true ↔ u32 a < u32 b := BitVec.ult_iff_toNat_lt

theorem evaluate_bge : evaluate .bge a b = !evaluate .blt a b := rfl
theorem evaluate_bgeu : evaluate .bgeu a b = !evaluate .bltu a b := rfl

theorem evaluate_bge_iff : evaluate .bge a b = true ↔ s32 a ≥ s32 b := by
  rw [evaluate_bge, Bool.not_eq_true', ← Bool.not_eq_true, evaluate_blt_iff, not_lt]

theorem evaluate_bgeu_iff : evaluate .bgeu a b = true ↔ u32 a ≥ u32 b := by
  rw [evaluate_bgeu, Bool.not_eq_true', ← Bool.not_eq_true, evaluate_bltu_iff, not_lt]

/-- Only a branch has a condition (R241). -/
theorem evaluate_of_not_branch (h : op.recordType ≠ .b) : evaluate op a b = false := by
  cases op
  case beq | bne | blt | bge | bltu | bgeu => exact absurd rfl h
  all_goals rfl

end

/-- Settles O13, row by row: words differ when one of their bits does. -/
theorem evaluatorFollowsItsTable : Obligations.EvaluatorFollowsItsTable := by
  intro a b
  have hne : a ≠ b ↔ ∃ k, k < 32 ∧ a.getLsbD k ≠ b.getLsbD k := by
    simp only [Ne, BitVec.eq_of_getLsbD_eq_iff, not_forall, exists_prop]
  exact ⟨evaluate_beq_iff.trans BitVec.eq_of_getLsbD_eq_iff, evaluate_bne_iff.trans hne, evaluate_blt_iff,
    evaluate_bge_iff, evaluate_bltu_iff, evaluate_bgeu_iff, fun _ => evaluate_of_not_branch⟩

/-! ## A branch: its result and its frame -/

section
variable {s t : State} {i : Instr} {taken : Prop}

/-- A branch that falls through, halts at the end or goes to its target leaves what R245 says, its condition being what the
Branch Evaluator answers. -/
theorem branchResult_of_exec (h : exec i s = .next t) (hb : i.op.recordType = .b)
    (htaken : evaluate i.op (s.readReg i.rs1OrZero) (s.readReg i.rs2OrZero) = true ↔ taken) :
    BranchResult s t i.immOrZero taken := by
  obtain ⟨hregs, hmem, hprogram⟩ := exec_branch_frame h hb
  refine ⟨fun q => by rw [State.readReg, State.readReg, hregs], fun a => by rw [hmem], hprogram, ?_⟩
  rcases exec_next_of_branch h hb with ⟨he, rfl⟩ | ⟨he, himm, rfl⟩ | ⟨he, himm, rfl⟩
  · have hnot : ¬taken := fun ht => Bool.false_ne_true (he.symm.trans (htaken.mpr ht))
    exact ⟨fun _ => ⟨passesOn_advancePc rfl, rfl⟩, fun ht => absurd ht hnot, fun ht => absurd ht hnot⟩
  · exact ⟨absurd (htaken.mp he), fun _ _ => ⟨rfl, (u32_haltAtEnd s).trans ∘ Nat.mod_eq_of_lt⟩,
      fun _ hne => absurd himm hne⟩
  · exact ⟨absurd (htaken.mp he), fun _ h0 => absurd h0 himm, fun _ _ => ⟨u32_setPc s _, rfl⟩⟩

/-- Each of the six branches runs the shared execution of a type B record, which always completes (R248 to R253). -/
theorem exec_branch_completes (hb : i.op.recordType = .b) (s : State) : ∃ t, exec i s = .next t := by
  cases i
  case beq | bne | blt | bge | bltu | bgeu => exact execBranch_completes ..
  all_goals nomatch hb

/-- A branch whose condition the Branch Evaluator computes completes with that condition's result. -/
theorem exec_branch_result (i : Instr) (hb : i.op.recordType = .b)
    (htaken : evaluate i.op (s.readReg i.rs1OrZero) (s.readReg i.rs2OrZero) = true ↔ taken) :
    ∃ t, exec i s = .next t ∧ BranchResult s t i.immOrZero taken := by
  obtain ⟨t, h⟩ := exec_branch_completes hb s
  exact ⟨t, h, branchResult_of_exec h hb htaken⟩

end

/-! ## The six branches -/

/-- Settles O29: the evaluator compares the sources' words. -/
theorem equalityBranchResults : Obligations.EqualityBranchResults := fun rs1 rs2 imm _ =>
  ⟨exec_branch_result (.beq rs1 rs2 imm) rfl evaluate_beq_iff, exec_branch_result (.bne rs1 rs2 imm) rfl evaluate_bne_iff⟩

/-- Settles O30: the evaluator compares the sources' signed readings. -/
theorem signedBranchResults : Obligations.SignedBranchResults := fun rs1 rs2 imm _ =>
  ⟨exec_branch_result (.blt rs1 rs2 imm) rfl evaluate_blt_iff, exec_branch_result (.bge rs1 rs2 imm) rfl evaluate_bge_iff⟩

/-- Settles O31: the evaluator compares the sources' unsigned readings. -/
theorem unsignedBranchResults : Obligations.UnsignedBranchResults := fun rs1 rs2 imm _ =>
  ⟨exec_branch_result (.bltu rs1 rs2 imm) rfl evaluate_bltu_iff,
    exec_branch_result (.bgeu rs1 rs2 imm) rfl evaluate_bgeu_iff⟩

/-! ## A branch to a negative address -/

section
variable {s t : State} {i : Instr}

/-- A step where the record at the pc decodes runs its instruction (45_engine.md R263, R265). -/
theorem step_of_fetches (h : Fetches s i) : step s = exec i s := by
  obtain ⟨h4, r, hr, hd⟩ := h
  have hk : u32 s.pc / 4 < s.instructionCount := (List.getElem?_eq_some_iff.mp hr).1
  exact step_of_decode_ok (fetch_of_record (by omega) h4 hr) hd

/-- A negative target is at least -2^31, so it is stored at 2^31 or above (D3), where no program within the bound of D2
reaches. -/
theorem setPc_outside_of_negative {x : Int} (hcount : s.instructionCount ≤ Config.maxInstructions) (hlow : -2147483648 ≤ x)
    (hneg : x < 0) : 4 * (s.setPc x).instructionCount ≤ u32 (s.setPc x).pc := by
  have hpc := u32_setPc s x
  have hbound : s.instructionCount ≤ 536870912 := hcount
  rw [setPc_instructionCount]
  omega

end

/-- Settles O33: a negative target is no self-branch's, so the step stores it, and the next one finds the pc outside the
program. -/
theorem negativeTargetsEndTheRun : Obligations.NegativeTargetsEndTheRun := by
  intro s t i hcount hfetch hb htaken hneg h
  rw [step_of_fetches hfetch] at h
  have hlow : -2147483648 ≤ s32 i.immOrZero := BitVec.le_toInt _
  rcases exec_next_of_branch h hb with ⟨he, _⟩ | ⟨_, himm, _⟩ | ⟨_, _, rfl⟩
  · exact absurd (htaken.symm.trans he) (by decide)
  · have hzero : s32 i.immOrZero = 0 := himm ▸ rfl
    omega
  · have hout := setPc_outside_of_negative (s := s) hcount (by omega) hneg
    exact ⟨hout, step_of_outside hout⟩

end Sys2Proof.Machine
end

section
/-! PROOFS. The host's operations but `step` and `run`: reset, load and the register inspector (45_engine.md R275 to R279). -/

namespace Sys2Proof.Machine

variable {s t : State} {source : Text} {e : ParseError}

/-! ## reset -/

theorem hostReset_readReg (s : State) (r : Reg) : s.hostReset.readReg r = 0 := readReg_of_regs_zero (hostReset_regs s) r

theorem hostReset_status_of_program (h : 0 < s.instructionCount) : s.hostReset.status = .ready := if_pos h

/-- Without a program a reset leaves the engine Idle (D5). -/
theorem hostReset_status_of_no_program (h : s.instructionCount = 0) : s.hostReset.status = .idle := if_neg h.not_gt

/-- Settles O8: a Register File of zeros and a memory that lists no cell read 0 everywhere, and the status is decided by the
number of records. -/
theorem resetClearsAndKeepsProgram : Obligations.ResetClearsAndKeepsProgram := fun s =>
  ⟨hostReset_readReg s, fun _ => rfl, rfl, hostReset_status_of_program, hostReset_status_of_no_program,
    hostReset_sameProgram s⟩

/-! ## load -/

/-- `load` answers an error exactly when the assembler does, and then leaves the state (R278). -/
theorem load_eq_error_iff : load source s = (.error e, t) ↔ assemble source = .error e ∧ t = s := by
  cases ha : assemble source with
  | error e' =>
    rw [load_of_error ha, Prod.mk.injEq, eq_comm (a := s)]
    simp only [Except.error.injEq]
  | ok p =>
    rw [load_of_ok ha, Prod.mk.injEq]
    simp only [reduceCtorEq, false_and]

/-- Settles O53: of the two answers of `load`, the assembler's error is the only one that is an error. -/
theorem failedLoadChangesNothing : Obligations.FailedLoadChangesNothing := fun _ _ _ _ => load_eq_error_iff

/-- Settles O54: a successful load leaves the reset of the state with the new program in place. -/
theorem successfulLoadInstallsAndResets : Obligations.SuccessfulLoadInstallsAndResets := fun _ s _ _ h =>
  ⟨_, load_of_ok h s, rfl, rfl, rfl, hostReset_readReg _, fun _ => rfl, rfl,
    fun hne => hostReset_status_of_program (List.length_pos_iff.mpr hne),
    fun hnil => hostReset_status_of_no_program (List.length_eq_zero_iff.mpr hnil)⟩

/-- Settles O50: a reset keeps what the invariant says of N, the program and the labels, and an assembled program meets it. -/
theorem resetAndLoadGiveInv : Obligations.ResetAndLoadGiveInv := by
  refine ⟨fun _ => hostReset_inv, fun source s t n hn h => ?_⟩
  cases ha : assemble source with
  | error e => cases (load_of_error ha s).symm.trans h
  | ok p =>
    have hinv := load_ok_inv ha hn
    rwa [h] at hinv

/-! ## inspectRegisters -/

/-- Element i of the inspector's list is the signed reading of register i (R279). -/
theorem inspectRegisters_getElem? (s : State) (r : Reg) : (inspectRegisters s)[r.val]? = some (s32 (s.readReg r)) := by
  simp [inspectRegisters]

/-- Settles O10: the list has one element per register index, and register 0 reads as 0. -/
theorem inspectRegistersShowsThirtyTwo : Obligations.InspectRegistersShowsThirtyTwo := by
  refine fun s => ⟨?length, inspectRegisters_getElem? s, ?zero⟩
  case length => rw [inspectRegisters, List.length_map, List.length_finRange]
  case zero => exact (inspectRegisters_getElem? s 0).trans (congrArg (fun v => some (s32 v)) (readReg_zero s))

end Sys2Proof.Machine
end

section
/-! PROOFS. The engine's step as the host calls it: the instruction it runs, the outcome it reports, the status it leaves, and
how a run ends (45_engine.md R261 to R272, R284). -/

namespace Sys2Proof.Machine

variable {s t : State} {r : Record} {i j : Instr}

/-! ## The instruction at the pc -/

/-- A pc that names a record is inside the valid range. -/
theorem pc_inside_of_record (hr : s.imem[u32 s.pc / 4]? = some r) : u32 s.pc < 4 * s.instructionCount := by
  have hk : u32 s.pc / 4 < s.instructionCount := (List.getElem?_eq_some_iff.mp hr).1
  omega

theorem pc_inside_of_fetches (h : Fetches s i) : u32 s.pc < 4 * s.instructionCount := by
  obtain ⟨_, _, hr, _⟩ := h
  exact pc_inside_of_record hr

/-- One instruction stands at the pc. -/
theorem fetches_unique (hi : Fetches s i) (hj : Fetches s j) : i = j := by
  obtain ⟨_, r, hr, hd⟩ := hi
  obtain ⟨_, r', hr', hd'⟩ := hj
  obtain rfl := Option.some.inj (hr.symm.trans hr')
  exact Except.ok.inj (hd.symm.trans hd')

/-- A step that completes inside the valid range is the instruction at the pc (R263, R265). -/
theorem fetches_of_step_next (hpc : u32 s.pc < 4 * s.instructionCount) (h : step s = .next t) :
    ∃ i, Fetches s i ∧ exec i s = .next t := by
  rcases step_next_cases h with ⟨hout, _⟩ | ⟨_, h4, r, i, hr, hd, hx⟩
  · omega
  · exact ⟨i, ⟨h4, r, hr, hd⟩, hx⟩

/-- Where the invariant holds, every aligned pc inside the valid range has an instruction. -/
theorem exists_fetches (hs : s.Inv) (hpc : u32 s.pc < 4 * s.instructionCount) (h4 : u32 s.pc % 4 = 0) :
    ∃ i, Fetches s i := by
  have hk : u32 s.pc / 4 < s.imem.length := by rw [State.instructionCount] at hpc; omega
  have hr := List.getElem?_eq_getElem hk
  obtain ⟨_, i, hd⟩ := hs.records _ _ hr
  exact ⟨i, h4, _, hr, hd⟩

/-- Settles O34: the premises say which instruction stands at the pc. -/
theorem stepRunsTheDecodedInstruction : Obligations.StepRunsTheDecodedInstruction := fun _ r _ h4 hr hd =>
  step_of_fetches ⟨h4, r, hr, hd⟩

/-! ## The outcome of a step call, by what its step answers -/

/-- The halt test compares the pc with the end of the program (R262). -/
theorem fetch_eq_outside_iff : s.fetch = .outside ↔ 4 * s.instructionCount ≤ u32 s.pc := by
  rcases fetch_cases s with ⟨hpc, e⟩ | ⟨hpc, _, e⟩ | ⟨hpc, _, _, _, e⟩ <;> rw [e]
  · exact iff_of_true rfl hpc
  · exact iff_of_false nofun hpc.not_ge
  · exact iff_of_false nofun hpc.not_ge

/-- Outside the valid range the call reports Halted (R262). -/
theorem stepCall_of_outside (hpc : 4 * s.instructionCount ≤ u32 s.pc) : stepCall s = (.halted, s.halt) := by
  simp only [stepCall, step_of_outside hpc, if_pos (fetch_eq_outside_iff.mpr hpc)]

/-- Inside it, a step that completes is reported as Executed, with the index of the pc before it (R267). -/
theorem stepCall_of_next (hpc : u32 s.pc < 4 * s.instructionCount) (h : step s = .next t) :
    stepCall s = (.executed (u32 s.pc / 4), t) := by
  simp only [stepCall, h, if_neg (mt fetch_eq_outside_iff.mp hpc.not_ge)]

/-- An ExecutionError is reported as Error and leaves the state (R264, R266). -/
theorem stepCall_of_executionError {e : ExecutionError} (h : step s = .fault (.executionError e)) :
    stepCall s = (.error e, s) := by
  simp only [stepCall, h]

/-- A step that stops is reported by an outcome after which a run stops, and leaves the state (R269, R273). -/
theorem stepCall_of_fault {f : Fault} (h : step s = .fault f) : (stepCall s).1.stopsRun = true ∧ (stepCall s).2 = s := by
  cases f with
  | executionError e => rw [stepCall_of_executionError h]; exact ⟨rfl, rfl⟩
  | misalignedData addr | storeOutOfRange addr => simp only [stepCall, h, StepOutcome.stopsRun, and_self]

/-- Settles O35: the step is the transition to Halted, which writes the status alone. -/
theorem pcOutsideTheProgramHalts : Obligations.PcOutsideTheProgramHalts := fun _ hpc =>
  ⟨_, step_of_outside hpc, stepCall_of_outside hpc, rfl, rfl, rfl, rfl, rfl, rfl, rfl⟩

/-- Settles O36: a Halted engine's pc is outside the program, and the transition to Halted writes the status it has. -/
theorem haltedStaysHalted : Obligations.HaltedStaysHalted := by
  intro s hs hhalted
  have hpc := hs.halted hhalted
  have hsame : s.halt = s := by rw [State.halt, ← hhalted]
  have hstep := step_of_outside hpc
  have hcall := stepCall_of_outside hpc
  rw [hsame] at hstep hcall
  exact ⟨hstep, hcall⟩

/-- Settles O37: the alignment test comes before the fetch, and an ExecutionError leaves the state. -/
theorem misalignedFetchIsAnExecutionError : Obligations.MisalignedFetchIsAnExecutionError := fun _ hpc h4 =>
  ⟨step_of_misaligned hpc h4, stepCall_of_executionError (step_of_misaligned hpc h4)⟩

/-- Settles O38: only a well-formed word decodes, so this one's record stops the step with the decoder's reason. -/
theorem illFormedRecordIsAnExecutionError : Obligations.IllFormedRecordIsAnExecutionError := by
  intro s r h4 hr hill
  cases hd : decode r.word with
  | error e =>
    have hstep := step_of_decode_error (fetch_of_record (pc_inside_of_record hr) h4 hr) hd
    exact ⟨e, hstep, stepCall_of_executionError hstep⟩
  | ok i =>
    obtain ⟨hz, hop⟩ := (decodesExactlyWellFormedWords r.word).mp ⟨i, hd⟩
    exact hill.elim (absurd hz) (absurd hop)

/-- Settles O39: of a call's outcomes, Halted comes from outside the program and the rest from a step that stops. -/
theorem executedNamesItsInstruction : Obligations.ExecutedNamesItsInstruction := by
  intro s k t
  constructor
  · intro h
    rcases le_or_gt (4 * s.instructionCount) (u32 s.pc) with hpc | hpc
    · cases (stepCall_of_outside hpc).symm.trans h
    cases hstep : step s with
    | next u =>
      cases (stepCall_of_next hpc hstep).symm.trans h
      exact ⟨hpc, rfl, fetches_of_step_next hpc hstep⟩
    | fault f =>
      have hstops := (stepCall_of_fault hstep).1
      rw [h] at hstops
      cases hstops
    | refused x => exact absurd hstep (nothingIsRefused.2 s x)
  · rintro ⟨hpc, rfl, i, hfetch, hx⟩
    exact stepCall_of_next hpc ((step_of_fetches hfetch).trans hx)

/-! ## The status that a step leaves -/

/-- A taken branch of immediate 0 halts at the end of the program, and any other instruction keeps the status (44_branch.md
R246, R254). -/
theorem exec_status_cases (h : exec i s = .next t) :
    (TakenSelfBranch s i ∧ t = s.haltAtEnd) ∨ (¬TakenSelfBranch s i ∧ t.status = s.status) := by
  by_cases hb : i.op.recordType = .b
  · rcases exec_next_of_branch h hb with ⟨he, rfl⟩ | ⟨he, himm, rfl⟩ | ⟨_, himm, rfl⟩
    · exact .inr ⟨fun ⟨_, _, htaken⟩ => Bool.false_ne_true (he.symm.trans htaken), rfl⟩
    · exact .inl ⟨⟨hb, himm, he⟩, rfl⟩
    · exact .inr ⟨fun ⟨_, hzero, _⟩ => himm hzero, rfl⟩
  · obtain ⟨_, _, hstatus, rfl⟩ := exec_advances_of_not_branch h hb
    exact .inr ⟨fun ⟨hbranch, _⟩ => hb hbranch, hstatus⟩

/-- An instruction that stops is no branch. -/
theorem not_takenSelfBranch_of_fault {f : Fault} (h : exec i s = .fault f) : ¬TakenSelfBranch s i := by
  rintro ⟨hb, _⟩
  obtain ⟨t, ht⟩ := exec_branch_completes hb s
  cases ht.symm.trans h

/-- The outcome and the status of a Ready engine's call at an instruction (R270). -/
theorem stepCall_ready_of_fetches (hready : s.status = .ready) (hfetch : Fetches s i) :
    (TakenSelfBranch s i ∧ (stepCall s).1 = .executed (u32 s.pc / 4) ∧ (stepCall s).2.status = .halted) ∨
    (¬TakenSelfBranch s i ∧ (stepCall s).1 = .executed (u32 s.pc / 4) ∧ (stepCall s).2.status = .ready) ∨
    (¬TakenSelfBranch s i ∧ (stepCall s).1.stopsRun = true ∧ (stepCall s).2.status = .ready) := by
  have hstep := step_of_fetches hfetch
  cases hx : exec i s with
  | next t =>
    rw [stepCall_of_next (pc_inside_of_fetches hfetch) (hstep.trans hx)]
    rcases exec_status_cases hx with ⟨hself, rfl⟩ | ⟨hself, hstatus⟩
    · exact .inl ⟨hself, rfl, rfl⟩
    · exact .inr (.inl ⟨hself, rfl, hstatus.trans hready⟩)
  | fault f =>
    obtain ⟨hstops, hsame⟩ := stepCall_of_fault (hstep.trans hx)
    exact .inr (.inr ⟨not_takenSelfBranch_of_fault hx, hstops, by rw [hsame, hready]⟩)
  | refused x => exact absurd hx (exec_ne_refused i s x)

/-- Settles O43: the invariant puts the pc of an Idle or Halted engine outside the program, and an instruction at every
aligned pc inside it. -/
theorem stepFollowsTheStatusTable : Obligations.StepFollowsTheStatusTable := by
  intro s hs
  have outside (hpc : 4 * s.instructionCount ≤ u32 s.pc) :
      (stepCall s).1 = .halted ∧ (stepCall s).2.status = .halted := by
    rw [stepCall_of_outside hpc]
    exact ⟨rfl, rfl⟩
  refine ⟨fun hidle => outside ?idle, fun hhalted => outside (hs.halted hhalted), fun _ => outside,
    fun hready hpc => ?inside⟩
  case idle =>
    have hcount := (hs.idle hidle).1
    omega
  case inside =>
    by_cases h4 : u32 s.pc % 4 = 0
    · obtain ⟨i, hfetch⟩ := exists_fetches hs hpc h4
      have only (hself : ¬TakenSelfBranch s i) : ∀ j, Fetches s j → ¬TakenSelfBranch s j := fun j hj =>
        fetches_unique hfetch hj ▸ hself
      rcases stepCall_ready_of_fetches hready hfetch with ⟨hself, hcall⟩ | ⟨hself, hcall⟩ | ⟨hself, hcall⟩
      · exact .inl ⟨i, hfetch, hself, hcall⟩
      · exact .inr (.inl ⟨only hself, hcall⟩)
      · exact .inr (.inr ⟨only hself, hcall⟩)
    · obtain ⟨hstops, hsame⟩ := stepCall_of_fault (step_of_misaligned hpc h4)
      exact .inr (.inr ⟨fun _ ⟨haligned, _⟩ => absurd haligned h4, hstops, by rw [hsame, hready]⟩)

/-! ## The end of a run -/

/-- After a self-loop halt the pc is at the end of the program, which the bound of D2 keeps below 2^32. -/
theorem u32_haltAtEnd_of_count (hcount : s.instructionCount ≤ Config.maxInstructions) :
    u32 s.haltAtEnd.pc = 4 * s.haltAtEnd.instructionCount := by
  have hbound : s.instructionCount ≤ 536870912 := hcount
  rw [u32_haltAtEnd, haltAtEnd_instructionCount, Nat.mod_eq_of_lt (by omega)]

/-- Settles O44: outside the program a step only halts, and inside it only a taken branch of immediate 0 changes the
status. -/
theorem runsEndInExactlyTwoWays : Obligations.RunsEndInExactlyTwoWays := by
  intro s t hcount hrunning h
  rcases le_or_gt (4 * s.instructionCount) (u32 s.pc) with hpc | hpc
  · cases (step_of_outside hpc).symm.trans h
    exact ⟨⟨fun _ => .inl hpc, fun _ => rfl⟩, fun _ => hpc, fun _ hin => absurd hin hpc.not_gt⟩
  obtain ⟨i, hfetch, hx⟩ := fetches_of_step_next hpc h
  rcases exec_status_cases hx with ⟨hself, rfl⟩ | ⟨hself, hstatus⟩
  · have hend := u32_haltAtEnd_of_count hcount
    exact ⟨⟨fun _ => .inr ⟨hpc, i, hfetch, hself⟩, fun _ => rfl⟩, fun _ => hend.ge, fun _ _ => hend⟩
  · have hgoes : ¬t.ended := fun hended => hrunning (hstatus.symm.trans hended)
    refine ⟨⟨(absurd · hgoes), ?_⟩, (absurd · hgoes), (absurd · hgoes)⟩
    rintro (hout | ⟨_, j, hj, hselfj⟩)
    · omega
    · exact absurd (fetches_unique hj hfetch ▸ hselfj) hself

end Sys2Proof.Machine
end

section
/-! PROOFS. `run()`: the loop and its bounded form return the same, and what it leaves is a sequence of step calls
(45_engine.md R273). -/

namespace Sys2Proof.Machine

variable {cancel : Nat → Bool} {k fuel : Nat} {s t : State} {r : RunResult}

/-! ## The bounded form, by what its first test and step find -/

theorem runFor_of_halted (h : s.status = .halted) : runFor cancel (fuel + 1) k s = some (.halted, s) := if_pos h

theorem runFor_of_cancelled (h : s.status ≠ .halted) (hc : cancel k = true) :
    runFor cancel (fuel + 1) k s = some (.cancelled, s) := by
  rw [runFor, if_neg h, if_pos hc]

theorem runFor_of_stopped (h : s.status ≠ .halted) (hc : cancel k = false) (ho : (stepCall s).1.stopsRun = true) :
    runFor cancel (fuel + 1) k s = some (.stopped (stepCall s).1, (stepCall s).2) := by
  simp only [runFor, if_neg h, hc, Bool.false_eq_true, if_false, if_pos ho]

theorem runFor_of_goesOn (h : s.status ≠ .halted) (hc : cancel k = false) (ho : (stepCall s).1.stopsRun = false) :
    runFor cancel (fuel + 1) k s = runFor cancel fuel (k + 1) (stepCall s).2 := by
  simp only [runFor, if_neg h, hc, ho, Bool.false_eq_true, if_false]

/-! ## The loop -/

/-- What the loop returns, the bounded form returns with one test per turn of the loop. -/
theorem runFor_of_returns (h : Returns cancel k s r t) : ∃ fuel, runFor cancel fuel k s = some (r, t) := by
  induction h with
  | halted h => exact ⟨1, runFor_of_halted h⟩
  | cancelled h hc => exact ⟨1, runFor_of_cancelled h hc⟩
  | stopped h hc ho => exact ⟨1, runFor_of_stopped h hc ho⟩
  | goesOn h hc ho _ ih =>
    obtain ⟨fuel, ih⟩ := ih
    exact ⟨fuel + 1, (runFor_of_goesOn h hc ho).trans ih⟩

/-- What the bounded form returns, the loop returns. -/
theorem returns_of_runFor (h : runFor cancel fuel k s = some (r, t)) : Returns cancel k s r t := by
  induction fuel generalizing k s with
  | zero => cases h
  | succ fuel ih =>
    by_cases hs : s.status = .halted
    · cases (runFor_of_halted hs).symm.trans h
      exact .halted hs
    cases hc : cancel k with
    | true =>
      cases (runFor_of_cancelled hs hc).symm.trans h
      exact .cancelled hs hc
    | false =>
      cases ho : (stepCall s).1.stopsRun with
      | true =>
        cases (runFor_of_stopped hs hc ho).symm.trans h
        exact .stopped hs hc ho
      | false => exact .goesOn hs hc ho (ih ((runFor_of_goesOn hs hc ho).symm.trans h))

/-- Settles O58, by induction on the loop in one direction and on the bound in the other. -/
theorem boundedRunIsTheLoop : Obligations.BoundedRunIsTheLoop := fun _ _ _ _ _ =>
  ⟨runFor_of_returns, fun ⟨_, h⟩ => returns_of_runFor h⟩

/-- Settles O59, by induction on the loop: it returns the state it stands in or the one of a last step call, and a turn that
goes on is one step call and one test before the rest. -/
theorem runIsASequenceOfSteps : Obligations.RunIsASequenceOfSteps := by
  intro cancel k s r t h
  induction h with
  | halted hs => exact ⟨⟨0, rfl⟩, fun _ => hs, nofun, nofun⟩
  | cancelled hs hc => exact ⟨⟨0, rfl⟩, nofun, fun _ => ⟨hs, 0, hc⟩, nofun⟩
  | stopped _ _ ho => exact ⟨⟨1, rfl⟩, nofun, nofun, fun _ e => RunResult.stopped.inj e ▸ ho⟩
  | @goesOn k _ _ _ _ _ _ _ ih =>
    obtain ⟨⟨n, hn⟩, hhalted, hcancelled, hstopped⟩ := ih
    refine ⟨⟨n + 1, hn⟩, hhalted, fun e => ?_, hstopped⟩
    obtain ⟨hrunning, m, hm⟩ := hcancelled e
    exact ⟨hrunning, m + 1, by rwa [Nat.add_right_comm k 1 m] at hm⟩

end Sys2Proof.Machine
end

section
/-! PROOFS. The ends of a step that are no Executed (60_exceptions.md): when an access faults (R308, R310), that no such end
changes the registers, the memory, the pc or the program (R311), and that an aligned program raises no ExecutionError (R305). -/

namespace Sys2Proof.Machine

variable {s t : State} {i : Instr} {f : Fault} {addr : Int}

/-! ## An ExecutionError needs a misaligned pc (R305) -/

/-- No instruction raises an ExecutionError: it comes from the fetch and the decoder alone. -/
theorem exec_ne_executionError (i : Instr) (s : State) (e : ExecutionError) : exec i s ≠ .fault (.executionError e) := by
  intro h
  rcases exec_fault_cases h with ⟨_, hf, _⟩ | ⟨_, hf, _⟩ <;> cases hf

/-- A branch offset is a multiple of 4 in its signed reading when it is in its unsigned one: 2^32 is a multiple of 4. -/
theorem s32_emod_four {imm : Word} (h4 : u32 imm % 4 = 0) : s32 imm % 4 = 0 := by
  rw [u32] at h4
  rw [s32, BitVec.toInt_eq_toNat_cond]
  split <;> omega

/-- An instruction leaves an aligned pc aligned unless it is a branch with a misaligned offset: 4, the offset and the end of
the program are multiples of 4, and so is the 2^32 of the pc's wrap (D3). -/
theorem exec_pc_aligned (h : exec i s = .next t) (h4 : u32 s.pc % 4 = 0)
    (himm : i.op.recordType = .b → u32 i.immOrZero % 4 = 0) : u32 t.pc % 4 = 0 := by
  by_cases hb : i.op.recordType = .b
  · rcases exec_next_of_branch h hb with ⟨_, rfl⟩ | ⟨_, _, rfl⟩ | ⟨_, _, rfl⟩
    · have hpc := u32_advancePc s
      omega
    · have hpc := u32_haltAtEnd s
      omega
    · have hpc := u32_setPc s (u32 s.pc + s32 i.immOrZero)
      have hoffset := s32_emod_four (himm hb)
      omega
  · obtain ⟨u, hu, _, rfl⟩ := exec_advances_of_not_branch h hb
    have hpc := u32_advancePc u
    rw [hu] at hpc
    omega

/-- The offset of the instruction at the pc is one of the program's. -/
theorem offset_aligned_of_fetches (hs : s.branchesAligned) (h : Fetches s i) (hb : i.op.recordType = .b) :
    u32 i.immOrZero % 4 = 0 := by
  obtain ⟨_, r, hr, hd⟩ := h
  exact hs r (List.mem_of_getElem? hr) i hd hb

theorem step_pc_aligned (hs : s.branchesAligned) (h4 : u32 s.pc % 4 = 0) (h : step s = .next t) : u32 t.pc % 4 = 0 := by
  rcases step_next_cases h with ⟨_, rfl⟩ | ⟨_, _, r, i, hr, hd, hx⟩
  · exact h4
  · exact exec_pc_aligned hx h4 (offset_aligned_of_fetches hs ⟨h4, r, hr, hd⟩)

/-- A step keeps the program, and with it the alignment of its branch offsets. -/
theorem step_branchesAligned (hs : s.branchesAligned) (h : step s = .next t) : t.branchesAligned := by
  rw [State.branchesAligned, (step_sameProgram h).1]
  exact hs

/-- Where the invariant holds, a step at an aligned pc halts or runs an instruction, so it raises no ExecutionError. -/
theorem step_ne_executionError (hs : s.Inv) (h4 : u32 s.pc % 4 = 0) (e : ExecutionError) :
    step s ≠ .fault (.executionError e) := by
  rcases le_or_gt (4 * s.instructionCount) (u32 s.pc) with hpc | hpc
  · rw [step_of_outside hpc]
    nofun
  · obtain ⟨i, hfetch⟩ := exists_fetches hs hpc h4
    rw [step_of_fetches hfetch]
    exact exec_ne_executionError i s e

/-- Settles O52: at an aligned pc the invariant excludes both causes of an ExecutionError, and every write of the pc adds
multiples of 4. -/
theorem alignedProgramsNeverErr : Obligations.AlignedProgramsNeverErr := fun _ hs hbranches h4 =>
  ⟨step_ne_executionError hs h4, fun _ h => ⟨step_branchesAligned hbranches h, step_pc_aligned hbranches h4 h⟩⟩

/-! ## Every other outcome is precise (R311) -/

/-- Settles O40: outside the program the call writes the status alone, and inside it a call that is not reported as Executed
is a step that stopped, which leaves the state. -/
theorem otherOutcomesChangeNothing : Obligations.OtherOutcomesChangeNothing := by
  intro s hother
  rcases le_or_gt (4 * s.instructionCount) (u32 s.pc) with hpc | hpc
  · rw [stepCall_of_outside hpc]
    exact ⟨rfl, rfl, rfl, ⟨rfl, rfl, rfl⟩, absurd rfl⟩
  · cases hstep : step s with
    | next t => exact absurd (congrArg Prod.fst (stepCall_of_next hpc hstep)) (hother _)
    | fault f =>
      rw [(stepCall_of_fault hstep).2]
      exact ⟨rfl, rfl, rfl, ⟨rfl, rfl, rfl⟩, fun _ => rfl⟩
    | refused x => exact absurd hstep (nothingIsRefused.2 s x)

/-! ## When an access faults (R308, R310) -/

/-- Every instruction whose record's op is `lw` runs the shared load. -/
theorem exec_of_op_lw (h : i.op = .lw) (s : State) :
    exec i s = execLoad i.rdOrZero i.rs1OrZero i.immOrZero s := by
  cases i
  case lw | lb | lh | lbu | lhu | li => rfl
  all_goals cases h

/-- Every instruction whose record's op is `sw` runs the shared store. -/
theorem exec_of_op_sw (h : i.op = .sw) (s : State) :
    exec i s = execStore i.rs1OrZero i.rs2OrZero i.immOrZero s := by
  cases i
  case sw | sb | sh => rfl
  all_goals cases h

/-- The alignment is tested in range alone, by loads and stores alike (D10, D25). -/
theorem exec_eq_misalignedData_iff : exec i s = .fault (.misalignedData addr) ↔
    (i.op = .lw ∨ i.op = .sw) ∧ addr = s.effectiveAddress i.rs1OrZero i.immOrZero ∧
      0 ≤ addr ∧ addr < s.dataBytes ∧ addr % 4 ≠ 0 := by
  constructor
  · intro h
    rcases exec_fault_cases h with ⟨hop, hf, ⟨h0, hN⟩, h4⟩ | ⟨_, hf, _⟩
    · cases hf
      exact ⟨hop, rfl, h0, hN, h4⟩
    · cases hf
  · rintro ⟨hop | hop, rfl, h0, hN, h4⟩
    · rw [exec_of_op_lw hop]
      exact loadsMisalignedFault .lw (by simp [loadMnemonics]) _ _ _ s h0 hN h4
    · rw [exec_of_op_sw hop]
      exact (storesStopOutsideTheirCells .sw (by simp [storeMnemonics]) _ _ _ s).2 h0 hN h4

/-- The range stops stores alone (D11): a load from out of range completes with 0. -/
theorem exec_eq_storeOutOfRange_iff : exec i s = .fault (.storeOutOfRange addr) ↔
    i.op = .sw ∧ addr = s.effectiveAddress i.rs1OrZero i.immOrZero ∧ (addr < 0 ∨ s.dataBytes ≤ addr) := by
  constructor
  · intro h
    rcases exec_fault_cases h with ⟨_, hf, _⟩ | ⟨hop, hf, hr⟩
    · cases hf
    · cases hf
      exact ⟨hop, rfl, by omega⟩
  · rintro ⟨hop, rfl, hr⟩
    rw [exec_of_op_sw hop]
    exact (storesStopOutsideTheirCells .sw (by simp [storeMnemonics]) _ _ _ s).1 hr

/-- A step that stops without an ExecutionError is an instruction that stops: the fetch and the decoder raise nothing else. -/
theorem step_eq_fault_iff (hf : ∀ e, f ≠ .executionError e) :
    step s = .fault f ↔ ∃ i, Fetches s i ∧ exec i s = .fault f := by
  constructor
  · intro h
    rcases fetch_cases s with ⟨hpc, _⟩ | ⟨hpc, h4, _⟩ | ⟨_, h4, r, hr, hrecord⟩
    · cases (step_of_outside hpc).symm.trans h
    · cases (step_of_misaligned hpc h4).symm.trans h
      exact absurd rfl (hf _)
    · cases hd : decode r.word with
      | error e =>
        cases (step_of_decode_error hrecord hd).symm.trans h
        exact absurd rfl (hf _)
      | ok i => exact ⟨i, ⟨h4, r, hr, hd⟩, (step_of_decode_ok hrecord hd).symm.trans h⟩
  · rintro ⟨i, hfetch, hx⟩
    exact (step_of_fetches hfetch).trans hx

/-- Settles O41: a fault of a step is one of the instruction at the pc, and each fault of an instruction has its own test. -/
theorem faultsComeFromAccessesAlone : Obligations.FaultsComeFromAccessesAlone := fun _ addr =>
  ⟨(step_eq_fault_iff (f := .misalignedData addr) nofun).trans
      (exists_congr fun _ => and_congr_right' exec_eq_misalignedData_iff),
    (step_eq_fault_iff (f := .storeOutOfRange addr) nofun).trans
      (exists_congr fun _ => and_congr_right' exec_eq_storeOutOfRange_iff)⟩

end Sys2Proof.Machine
end

section
/-! PROOFS. The words that the spec prints beside its programs (95_test_vectors.md) decode to the records they stand beside. -/

namespace Sys2Proof

variable {w : RecordWord} {i : Instr}

/-- A word that packs the fields of a record form (R93) decodes to it. -/
theorem decode_of_encode_eq (hi : i.wellFormed = true) (hw : encode i = w) : decode w = .ok i :=
  hw ▸ recordFormsRoundTrip i hi

/-- Settles O5: each printed word is the pack of the record beside it, and a record form decodes from its pack. -/
theorem printedWordsDecode : Obligations.PrintedWordsDecode := by
  refine ⟨?_, ?_, ?_, ?_, ?_, ?_, ?_⟩ <;> exact decode_of_encode_eq rfl (by decide)

end Sys2Proof
end
